-- ==== Sys2Proof/Word.lean ====
section
/-! DEFINITION. The words of the iobit CORE: bytes of the buffers, 16-bit command words, and the 64-bit words of
operands, results and bit positions (00_scope.md R5: `OPDW = 64`, `POSW = 64`). -/

namespace Sys2Proof

/-- One byte of a buffer memory (00_scope.md R6). -/
abbrev Byte := BitVec 8

/-- A 64-bit word: an operand `OPD`, a result `RES` or `AUX`, a bit position, a length (R5). -/
abbrev Word := BitVec 64

/-- A 16-bit command word `CW` (30_encoding.md R61). -/
abbrev CmdWord := BitVec 16

/-- `2^POSW`: every bit position stays below it (10_state.md R23, R26). -/
abbrev posLimit : Nat := 2 ^ 64

/-- `NCTX`: the number of reader cursor contexts (00_scope.md R5). -/
abbrev nctx : Nat := 4

/-- The number of a reader cursor context, `0 <= c < NCTX` (10_state.md R22). -/
abbrev Ctx := Fin nctx

end Sys2Proof
end

