-- ==== Sys2Proof/Syntax.lean ====
section
/-! DEFINITION. The commands of the iobit CORE, one constructor per row of spec/opcode_table.json (30_encoding.md R63,
R64), and the names under which a command word is rejected. -/

namespace Sys2Proof

/-- A command with its operands. `c` is the field CTX; `w` the field WIDTH, unbiased and unscaled (R65); a `Word`
argument is the operand OPD of a command that uses it (R66). -/
inductive Instr where
  -- reader, bit fields and cursor (R63)
  | rBit (c : Ctx)
  | rSkip (c : Ctx) (bits : Word)
  | rPeek (src dst : Ctx)
  | rAt (c : Ctx)
  | rUint8 (c : Ctx) (w : Nat)
  | rUint16 (c : Ctx) (w : Nat)
  | rUint32 (c : Ctx) (w : Nat)
  | rUint64 (c : Ctx) (w : Nat)
  | rInt8 (c : Ctx) (w : Nat)
  | rInt16 (c : Ctx) (w : Nat)
  | rInt32 (c : Ctx) (w : Nat)
  | rInt64 (c : Ctx) (w : Nat)
  | rByte (c : Ctx)
  | rLe16 (c : Ctx)
  | rLe32 (c : Ctx)
  | rLe64 (c : Ctx)
  | rBe16 (c : Ctx)
  | rBe32 (c : Ctx)
  | rBe64 (c : Ctx)
  | rLeftBits (c : Ctx)
  | rLeftBytes (c : Ctx)
  | rReset (c : Ctx)
  | rError (c : Ctx)
  | rNew (len : Word)
  -- writer (R64)
  | wAt
  | wPutU8 (w : Nat) (value : Word)
  | wPutU16 (w : Nat) (value : Word)
  | wPutU32 (w : Nat) (value : Word)
  | wPutU64 (w : Nat) (value : Word)
  | wPutByte (value : Word)
  | wPutLe16 (value : Word)
  | wPutLe32 (value : Word)
  | wPutLe64 (value : Word)
  | wPutBe16 (value : Word)
  | wPutBe32 (value : Word)
  | wPutBe64 (value : Word)
  | wFlush
  | wReset
  | wError
  | wNew (len : Word)
  deriving DecidableEq, Repr

/-- Why a command word matches no row of R63 and R64 (30_encoding.md R68, R72 steps 2 and 3). -/
inductive IllegalEncoding where
  /-- The value of OP is reserved in its unit (R68, R69). -/
  | reservedOp
  /-- The reserved bit Z is 1 (R61). -/
  | zBitSet
  /-- CW[6:0] is not 0 in a command that takes no width (R61). -/
  | nonZeroWidth
  /-- CW[6:2] is not 0 in R.PEEK (R61). -/
  | nonZeroPeekBits
  /-- CTX is not 0 in R.NEW or a writer command (R61). -/
  | nonZeroCtx
  deriving DecidableEq, Repr

end Sys2Proof
end

