-- ==== Sys2Proof/WellFormed.lean ====
section
/-! DEFINITION. The static operand constraints of a command: the width bound of 30_encoding.md R65. The other
constraints of R68 (length above capacity, position bound) depend on the machine and are checked by the meanings. -/

namespace Sys2Proof

/-- R65: `1 <= w <= n`, with `n` the command's result width. -/
def widthOk (w n : Nat) : Bool := decide (1 ≤ w) && decide (w ≤ n)

/-- The check of R65, command by command. -/
def Instr.wf : Instr → Bool
  | .rBit _ => true
  | .rSkip _ _ => true
  | .rPeek _ _ => true
  | .rAt _ => true
  | .rUint8 _ w => widthOk w 8
  | .rUint16 _ w => widthOk w 16
  | .rUint32 _ w => widthOk w 32
  | .rUint64 _ w => widthOk w 64
  | .rInt8 _ w => widthOk w 8
  | .rInt16 _ w => widthOk w 16
  | .rInt32 _ w => widthOk w 32
  | .rInt64 _ w => widthOk w 64
  | .rByte _ => true
  | .rLe16 _ => true
  | .rLe32 _ => true
  | .rLe64 _ => true
  | .rBe16 _ => true
  | .rBe32 _ => true
  | .rBe64 _ => true
  | .rLeftBits _ => true
  | .rLeftBytes _ => true
  | .rReset _ => true
  | .rError _ => true
  | .rNew _ => true
  | .wAt => true
  | .wPutU8 w _ => widthOk w 8
  | .wPutU16 w _ => widthOk w 16
  | .wPutU32 w _ => widthOk w 32
  | .wPutU64 w _ => widthOk w 64
  | .wPutByte _ => true
  | .wPutLe16 _ => true
  | .wPutLe32 _ => true
  | .wPutLe64 _ => true
  | .wPutBe16 _ => true
  | .wPutBe32 _ => true
  | .wPutBe64 _ => true
  | .wFlush => true
  | .wReset => true
  | .wError => true
  | .wNew _ => true

end Sys2Proof
end

