-- ==== Sys2Proof/Decode.lean ====
section
/-! DEFINITION. The decoder of command words, total and rejecting by name (30_encoding.md R61, R63, R64, R72 steps 1 to
3), and after it the encoder, written from the same rows. A width out of range is no matter of decoding: the row is
found, and R72 step 4 refuses it in the command's meaning (assumption 14). -/

namespace Sys2Proof

/-! ## The fields of R61 -/

/-- `U = CW[15]`. -/
def cwUnit (cw : CmdWord) : Nat := cw.toNat / 2 ^ 15

/-- `OP = CW[14:10]`. -/
def cwOp (cw : CmdWord) : Nat := cw.toNat / 2 ^ 10 % 2 ^ 5

/-- `CTX = CW[9:8]`. -/
def cwCtx (cw : CmdWord) : Ctx := ⟨cw.toNat / 2 ^ 8 % 4, Nat.mod_lt _ (by decide)⟩

/-- `Z = CW[7]`. -/
def cwZ (cw : CmdWord) : Nat := cw.toNat / 2 ^ 7 % 2

/-- `WIDTH = CW[6:0]`. -/
def cwWidth (cw : CmdWord) : Nat := cw.toNat % 2 ^ 7

/-- `DST = CW[1:0]`, of R.PEEK. -/
def cwDst (cw : CmdWord) : Ctx := ⟨cw.toNat % 4, Nat.mod_lt _ (by decide)⟩

/-! ## The must-be-zero checks of R61 -/

/-- A command that takes a width: only Z must be 0. -/
def withWidth (cw : CmdWord) (i : Instr) : Except IllegalEncoding Instr :=
  if cwZ cw ≠ 0 then .error .zBitSet else .ok i

/-- A command that takes no width: Z and WIDTH must be 0. -/
def withoutWidth (cw : CmdWord) (i : Instr) : Except IllegalEncoding Instr :=
  if cwZ cw ≠ 0 then .error .zBitSet else if cwWidth cw ≠ 0 then .error .nonZeroWidth else .ok i

/-- R.PEEK: Z and CW[6:2] must be 0. -/
def peekBits (cw : CmdWord) (i : Instr) : Except IllegalEncoding Instr :=
  if cwZ cw ≠ 0 then .error .zBitSet else if cwWidth cw / 4 ≠ 0 then .error .nonZeroPeekBits else .ok i

/-- R.NEW and the writer commands: CTX must be 0. -/
def noCtx (cw : CmdWord) (r : Except IllegalEncoding Instr) : Except IllegalEncoding Instr :=
  if (cwCtx cw).val ≠ 0 then .error .nonZeroCtx else r

/-! ## The rows -/

/-- The reader's rows, `U = 0` (R63). -/
def decodeReader (cw : CmdWord) (opd : Word) : Except IllegalEncoding Instr :=
  match cwOp cw with
  | 0x00 => withoutWidth cw (.rBit (cwCtx cw))
  | 0x01 => withoutWidth cw (.rSkip (cwCtx cw) opd)
  | 0x02 => peekBits cw (.rPeek (cwCtx cw) (cwDst cw))
  | 0x03 => withoutWidth cw (.rAt (cwCtx cw))
  | 0x04 => withWidth cw (.rUint8 (cwCtx cw) (cwWidth cw))
  | 0x05 => withWidth cw (.rUint16 (cwCtx cw) (cwWidth cw))
  | 0x06 => withWidth cw (.rUint32 (cwCtx cw) (cwWidth cw))
  | 0x07 => withWidth cw (.rUint64 (cwCtx cw) (cwWidth cw))
  | 0x08 => withWidth cw (.rInt8 (cwCtx cw) (cwWidth cw))
  | 0x09 => withWidth cw (.rInt16 (cwCtx cw) (cwWidth cw))
  | 0x0A => withWidth cw (.rInt32 (cwCtx cw) (cwWidth cw))
  | 0x0B => withWidth cw (.rInt64 (cwCtx cw) (cwWidth cw))
  | 0x0C => withoutWidth cw (.rByte (cwCtx cw))
  | 0x0D => withoutWidth cw (.rLe16 (cwCtx cw))
  | 0x0E => withoutWidth cw (.rLe32 (cwCtx cw))
  | 0x0F => withoutWidth cw (.rLe64 (cwCtx cw))
  | 0x11 => withoutWidth cw (.rBe16 (cwCtx cw))
  | 0x12 => withoutWidth cw (.rBe32 (cwCtx cw))
  | 0x13 => withoutWidth cw (.rBe64 (cwCtx cw))
  | 0x14 => withoutWidth cw (.rLeftBits (cwCtx cw))
  | 0x15 => withoutWidth cw (.rLeftBytes (cwCtx cw))
  | 0x16 => withoutWidth cw (.rReset (cwCtx cw))
  | 0x17 => withoutWidth cw (.rError (cwCtx cw))
  | 0x18 => noCtx cw (withoutWidth cw (.rNew opd))
  | _ => .error .reservedOp

/-- The writer's rows, `U = 1` (R64). -/
def decodeWriter (cw : CmdWord) (opd : Word) : Except IllegalEncoding Instr :=
  match cwOp cw with
  | 0x03 => noCtx cw (withoutWidth cw .wAt)
  | 0x04 => noCtx cw (withWidth cw (.wPutU8 (cwWidth cw) opd))
  | 0x05 => noCtx cw (withWidth cw (.wPutU16 (cwWidth cw) opd))
  | 0x06 => noCtx cw (withWidth cw (.wPutU32 (cwWidth cw) opd))
  | 0x07 => noCtx cw (withWidth cw (.wPutU64 (cwWidth cw) opd))
  | 0x0C => noCtx cw (withoutWidth cw (.wPutByte opd))
  | 0x0D => noCtx cw (withoutWidth cw (.wPutLe16 opd))
  | 0x0E => noCtx cw (withoutWidth cw (.wPutLe32 opd))
  | 0x0F => noCtx cw (withoutWidth cw (.wPutLe64 opd))
  | 0x11 => noCtx cw (withoutWidth cw (.wPutBe16 opd))
  | 0x12 => noCtx cw (withoutWidth cw (.wPutBe32 opd))
  | 0x13 => noCtx cw (withoutWidth cw (.wPutBe64 opd))
  | 0x15 => noCtx cw (withoutWidth cw .wFlush)
  | 0x16 => noCtx cw (withoutWidth cw .wReset)
  | 0x17 => noCtx cw (withoutWidth cw .wError)
  | 0x18 => noCtx cw (withoutWidth cw (.wNew opd))
  | _ => .error .reservedOp

/-- R72 steps 1 to 3: the command a command word and its operand stand for, or why there is none. -/
def decode (cw : CmdWord) (opd : Word) : Except IllegalEncoding Instr :=
  if cwUnit cw = 0 then decodeReader cw opd else decodeWriter cw opd

/-! ## The encoder -/

/-- `CW = U<<15 | OP<<10 | CTX<<8 | Z<<7 | WIDTH` with `Z = 0` (R61). -/
def packCw (u op ctx width : Nat) : CmdWord :=
  BitVec.ofNat 16 (u * 2 ^ 15 + op * 2 ^ 10 + ctx * 2 ^ 8 + width)

/-- The command word and operand of a command; an unused operand is 0, as R66's assembler emits it. -/
def encode : Instr → CmdWord × Word
  | .rBit c => (packCw 0 0x00 c.val 0, 0)
  | .rSkip c bits => (packCw 0 0x01 c.val 0, bits)
  | .rPeek src dst => (packCw 0 0x02 src.val dst.val, 0)
  | .rAt c => (packCw 0 0x03 c.val 0, 0)
  | .rUint8 c w => (packCw 0 0x04 c.val w, 0)
  | .rUint16 c w => (packCw 0 0x05 c.val w, 0)
  | .rUint32 c w => (packCw 0 0x06 c.val w, 0)
  | .rUint64 c w => (packCw 0 0x07 c.val w, 0)
  | .rInt8 c w => (packCw 0 0x08 c.val w, 0)
  | .rInt16 c w => (packCw 0 0x09 c.val w, 0)
  | .rInt32 c w => (packCw 0 0x0A c.val w, 0)
  | .rInt64 c w => (packCw 0 0x0B c.val w, 0)
  | .rByte c => (packCw 0 0x0C c.val 0, 0)
  | .rLe16 c => (packCw 0 0x0D c.val 0, 0)
  | .rLe32 c => (packCw 0 0x0E c.val 0, 0)
  | .rLe64 c => (packCw 0 0x0F c.val 0, 0)
  | .rBe16 c => (packCw 0 0x11 c.val 0, 0)
  | .rBe32 c => (packCw 0 0x12 c.val 0, 0)
  | .rBe64 c => (packCw 0 0x13 c.val 0, 0)
  | .rLeftBits c => (packCw 0 0x14 c.val 0, 0)
  | .rLeftBytes c => (packCw 0 0x15 c.val 0, 0)
  | .rReset c => (packCw 0 0x16 c.val 0, 0)
  | .rError c => (packCw 0 0x17 c.val 0, 0)
  | .rNew len => (packCw 0 0x18 0 0, len)
  | .wAt => (packCw 1 0x03 0 0, 0)
  | .wPutU8 w value => (packCw 1 0x04 0 w, value)
  | .wPutU16 w value => (packCw 1 0x05 0 w, value)
  | .wPutU32 w value => (packCw 1 0x06 0 w, value)
  | .wPutU64 w value => (packCw 1 0x07 0 w, value)
  | .wPutByte value => (packCw 1 0x0C 0 0, value)
  | .wPutLe16 value => (packCw 1 0x0D 0 0, value)
  | .wPutLe32 value => (packCw 1 0x0E 0 0, value)
  | .wPutLe64 value => (packCw 1 0x0F 0 0, value)
  | .wPutBe16 value => (packCw 1 0x11 0 0, value)
  | .wPutBe32 value => (packCw 1 0x12 0 0, value)
  | .wPutBe64 value => (packCw 1 0x13 0 0, value)
  | .wFlush => (packCw 1 0x15 0 0, 0)
  | .wReset => (packCw 1 0x16 0 0, 0)
  | .wError => (packCw 1 0x17 0 0, 0)
  | .wNew len => (packCw 1 0x18 0 0, len)

/-! ## A row of the opcode table as one number -/

/-- The command a table number of `nbits` bits stands for: CW is its bits 15..0 and OPD the 64 bits after them, every
bit from `nbits` up being 0 (assumption 15). -/
def tableCommand (nbits w : Nat) : CmdWord × Word :=
  (BitVec.ofNat 16 (w % 2 ^ nbits), BitVec.ofNat 64 (w % 2 ^ nbits / 2 ^ 16))

/-- What the decoder reads from a table number. -/
def decodeTableWord (nbits w : Nat) : Option Instr :=
  (decode (tableCommand nbits w).1 (tableCommand nbits w).2).toOption

end Sys2Proof
end

