-- ==== Sys2Proof/Config.lean ====
section
/-! DEFINITION. What an implementation of the iobit CORE fixes (00_scope.md R5) and the model's one free value. -/

namespace Sys2Proof

/-- The parameters R5 leaves to the implementation. They are fixed for a machine and no step changes them; State
carries them, so that a statement about every state holds for every setting (assumption 1). -/
structure Config where
  /-- `RCAP`: capacity of the reader's buffer memory, in bytes. OPEN in the spec (D9). -/
  rcap : Nat
  /-- `WCAP`: capacity of the writer's buffer memory, in bytes. OPEN in the spec (D9). -/
  wcap : Nat
  /-- `WR_PARTIAL`: whether a write that crosses the end stores its in-range bits (D12). -/
  wrPartial : Bool
  deriving DecidableEq, Repr

/-- R5: each capacity satisfies `8*cap < 2^POSW`. -/
abbrev Config.wf (k : Config) : Prop := 8 * k.rcap < posLimit ∧ 8 * k.wcap < posLimit

/-- The setting State.reset carries. `WR_PARTIAL = false` is R5's default. DESIGN CHOICE (assumption 1, unsafe):
the capacities are OPEN; 64 is the value 95_test_vectors.md assumes. -/
def Config.default : Config := { rcap := 64, wcap := 64, wrPartial := false }

/-- FREE VALUE (assumption 5): what the byte of WBUF at an address holds after the given power-on, as long as neither
the host nor the writer has written it. 10_state.md R33 leaves it unspecified; 93_implementation_defined.md U9
treats it as any value. It has no body: nothing can be proved of it. -/
opaque Config.unspecifiedByte : (epoch addr : Nat) → Byte

end Sys2Proof
end

