-- ==== Sys2Proof/Machine/State.lean ====
section
/-! DEFINITION. The state of the iobit CORE (10_state.md R22 to R28, R33) as plain data, with the host's side of the
command port, the reasons a step can stop, and the state after a hardware reset (70_reset_and_hazards.md R180). -/

namespace Sys2Proof.Machine

open Sys2Proof

/-- The sticky error of a cursor: `None` or `Overflow` (10_state.md R24, R27). -/
inductive ErrState where
  | none
  | overflow
  deriving DecidableEq, Repr

/-- A cursor: a bit position and a sticky error (R23, R24; R26, R27). -/
structure Cursor where
  /-- `pos`: bits consumed or produced since the cursor was last rewound; may exceed the capacity. -/
  pos : Word
  /-- `err`. -/
  err : ErrState
  deriving DecidableEq, Repr

/-- The cursor `(0, None)` of a constructor, a rewind and a reset (R33). -/
def Cursor.zero : Cursor := { pos := 0, err := .none }

/-- A buffer memory: the bytes that hold a value, by address. An address that is not listed holds NO value
(R33: "holds no value until the host writes it"). -/
abbrev Memory := List Host.Cell

/-- The canonical form of a memory: addresses strictly rising. As an unlisted address holds no value, no listed byte
can equal what an unlisted one reads as. -/
abbrev Memory.wf (m : Memory) : Prop := List.Pairwise (fun x y : Host.Cell => x.1 < y.1) m

/-- The reader unit (R22, R25). -/
structure Reader where
  /-- `R.len`: the number of leading bytes of RBUF that form the stream. -/
  len : Word
  /-- `RBUF`. -/
  buf : Memory
  /-- `R.ctx[0]` to `R.ctx[3]`. -/
  ctx : Vector Cursor nctx
  deriving DecidableEq, Repr

/-- The writer unit (R26, R27, R28). -/
structure Writer where
  /-- `W.len`: the number of leading bytes of WBUF that form the destination. -/
  len : Word
  /-- `WBUF`. -/
  buf : Memory
  /-- `W.pos` and `W.err`. -/
  cur : Cursor
  deriving DecidableEq, Repr

/-- The response to one command (30_encoding.md R60, R67). -/
structure Response where
  res : Word
  aux : Word
  deriving DecidableEq, Repr

/-- What the host can do to the block (30_encoding.md R60; 70_reset_and_hazards.md R180, R184, R185). -/
inductive HostMove where
  /-- Present a command at the port. -/
  | command (cw : CmdWord) (opd : Word)
  /-- Write a byte of RBUF. -/
  | writeRbuf (addr : Nat) (b : Byte)
  /-- Write a byte of WBUF. -/
  | writeWbuf (addr : Nat) (b : Byte)
  /-- Apply a hardware reset. -/
  | hardwareReset
  deriving DecidableEq, Repr

/-- Why the machine stops with a fault. -/
inductive Fault where
  /-- A consuming command would read a byte of RBUF that the host never wrote since the last hardware reset.
  Raised by every reader command that returns stream data. SAFE: 93_implementation_defined.md U9 gives the byte no
  value (assumption 4). -/
  | rbufByteNeverWritten
  /-- A host write at an offset the buffer memory does not have (20_memory.md R40). Raised by the two host writes.
  SAFE: the byte does not exist (assumption 7). -/
  | noSuchBufferByte
  deriving DecidableEq, Repr

/-- Why a move has no meaning: 00_scope.md R14's "refuse". Each is SAFE: no step, no state, no result. -/
inductive Refusal where
  /-- The instruction has no meaning in this model yet. Raised by Dispatch's rejected arms alone. -/
  | notModelled (mnemonic : String)
  /-- The command word matches no row of R63 and R64 (30_encoding.md R68). Raised by step. -/
  | illegalEncoding (why : IllegalEncoding)
  /-- WIDTH is 0 or above the command's result width (R65, U2). Raised by R.UINTn, R.INTn, W.PUTUn. -/
  | widthOutOfRange
  /-- The position would reach 2^POSW (R23, R26, U4). Raised by every command that advances a position. -/
  | positionOutOfRange
  /-- The length is above the capacity of the buffer memory (R66, U8). Raised by R.NEW and W.NEW. -/
  | lengthAboveCapacity
  /-- The host writes a byte of the stream a live cursor has borrowed (R184, R185, U6). Raised by the two host
  writes (assumption 6). -/
  | bufferInUse
  deriving DecidableEq, Repr

/-- The whole machine. -/
structure State where
  /-- The implementation's parameters; fixed (assumption 1). -/
  cfg : Config
  /-- The reader unit. -/
  rd : Reader
  /-- The writer unit. -/
  wr : Writer
  /-- MODEL'S OWN: which power-on the unspecified bytes of WBUF date from (assumption 5). -/
  epoch : Nat
  /-- The host's moves still to come, the next one first (assumption 2). -/
  pending : List HostMove
  /-- The responses returned so far, oldest first (assumption 3). -/
  responses : List Response
  deriving DecidableEq, Repr

/-- The three outcomes of a step of this machine. -/
abbrev Result := Host.Outcome State Fault Refusal

/-- The reader after a hardware reset: an empty stream, every context `(0, None)`, no byte of RBUF with a value (R180). -/
def Reader.reset : Reader := { len := 0, buf := [], ctx := Vector.replicate nctx Cursor.zero }

/-- The writer after a hardware reset (R180). -/
def Writer.reset : Writer := { len := 0, buf := [], cur := Cursor.zero }

/-- The machine right after power-on: R180, with the default parameters (assumption 1), and a host that has presented
nothing yet (assumption 2). -/
def State.reset : State :=
  { cfg := Config.default, rd := Reader.reset, wr := Writer.reset, epoch := 0, pending := [], responses := [] }

end Sys2Proof.Machine
end

