-- ==== Sys2Proof/Machine/Flags.lean ====
section
/-! DEFINITION. The one flag of each cursor: when it is set (60_exceptions.md R160) and how it is read back (R161). -/

namespace Sys2Proof.Machine

open Sys2Proof

/-- R160: a field of `w` bits at position `p` crosses or lies past the end of a stream of `len` bytes. Strict: a field
that ends exactly at the capacity does not overflow. -/
def overflows (p w len : Nat) : Bool := decide (8 * len < p + w)

/-- R161: `None` reads as 0, `Overflow` as 1. -/
def ErrState.code : ErrState → Word
  | .none => 0
  | .overflow => 1

end Sys2Proof.Machine
end

