-- ==== Sys2Proof/Machine/Operands.lean ====
section
/-! DEFINITION. Operand and result assembly: the pure functions of 00_scope.md R9 and R11, the low bits of an operand
(30_encoding.md R66), the forms of RES (R67), and the operand constraints of R68. -/

namespace Sys2Proof.Machine

open Sys2Proof

/-! ## Values -/

/-- `OPD[w-1:0]` (R66): the low `w` bits of an operand, higher bits ignored. -/
def lowBits (w : Nat) (opd : Word) : Nat := opd.toNat % 2 ^ w

/-- `tosigned(r, w)` of 00_scope.md R9, for `1 <= w`. -/
def tosigned (r w : Nat) : Int :=
  if 2 ^ (w - 1) ≤ r then (r : Int) - (2 ^ w : Nat) else (r : Int)

/-- `bswap_k(v)` of R11: the `k` bytes of `v` in reverse order. -/
def bswap : (k v : Nat) → Nat
  | 0, _ => 0
  | k + 1, v => v % 256 * 256 ^ k + bswap k (v / 256)

/-! ## Forms of RES (R67) -/

/-- An unsigned result, zero-extended. -/
def unsignedRes (raw : Nat) : Word := BitVec.ofNat 64 raw

/-- A signed result: the field's two's-complement value modulo `2^64`. -/
def signedRes (w raw : Nat) : Word := BitVec.ofInt 64 (tosigned raw w)

/-- The value of a little-endian helper of `k` bytes (41_reader_bytes.md R100). -/
def littleEndianRes (k raw : Nat) : Word := BitVec.ofNat 64 (bswap k raw)

/-! ## Field values of the writer's byte helpers (43_writer.md R135) -/

/-- BE: the low `8k` bits as they stand. -/
def bigEndianField (k : Nat) (opd : Word) : Nat := lowBits (8 * k) opd

/-- LE: the low `8k` bits with their bytes reversed. -/
def littleEndianField (k : Nat) (opd : Word) : Nat := bswap k (lowBits (8 * k) opd)

/-! ## Constraints (R68) -/

/-- `require 1 <= w <= n else refuse` (R65). -/
def requireWidth (w n : Nat) (r : Result) : Result :=
  if 1 ≤ w ∧ w ≤ n then r else .refused .widthOutOfRange

/-- `require N <= capacity else refuse` (R66). -/
def requireCapacity (len : Word) (cap : Nat) (r : Result) : Result :=
  if len.toNat ≤ cap then r else .refused .lengthAboveCapacity

/-- `require pos + amount < 2^POSW else refuse` (R68). -/
def requirePosition (pos : Word) (amount : Nat) (r : Result) : Result :=
  if pos.toNat + amount < posLimit then r else .refused .positionOutOfRange

end Sys2Proof.Machine
end

