-- ==== Sys2Proof/Machine/Ops.lean ====
section
/-! DEFINITION. The named operations over the buffers and cursors: bytes, stream bits, field extraction and insertion
(00_scope.md R7, R8, R10), taking and clearing the Overflow condition (60_exceptions.md R165, R166), the common
consumption and production steps (40_reader_bitfield.md R80, 43_writer.md R130), and the host's direct accesses. -/

namespace Sys2Proof.Machine

open Sys2Proof

/-! ## Bytes of a buffer memory -/

/-- The byte at an address, if it holds a value. -/
def Memory.read : Memory → Nat → Option Byte
  | [], _ => none
  | (k, b) :: m, a => if k = a then some b else Memory.read m a

/-- Store a byte, keeping the addresses strictly rising. -/
def Memory.write : Memory → Nat → Byte → Memory
  | [], a, b => [(a, b)]
  | (k, v) :: m, a, b =>
    if a < k then (a, b) :: (k, v) :: m
    else if a = k then (a, b) :: m
    else (k, v) :: Memory.write m a b

/-! ## Stream bits: the unpacker (R7, R8) -/

/-- The bit of weight `2^(7 - i)` of a byte: bit `i` counted from the most significant (R7). -/
def bitOfByte (b : Byte) (i : Nat) : Nat := b.toNat / 2 ^ (7 - i) % 2

/-- `sbit(B, L, i)` of R7: 0 at or past the end, where no memory is touched (20_memory.md R46). No answer where the
byte holds no value. -/
def sbit (m : Memory) (len i : Nat) : Option Nat :=
  if i < 8 * len then (m.read (i / 8)).map (fun b => bitOfByte b (i % 8)) else some 0

/-- `extract(B, L, p, w)` of R8, the first bit the most significant. No answer where some byte it reads holds no
value. -/
def extract (m : Memory) (len p : Nat) : (w : Nat) → Option Nat
  | 0 => some 0
  | w + 1 => do
    let high ← extract m len p w
    let low ← sbit m len (p + w)
    return 2 * high + low

/-! ## Stream bits: the packer (R10) -/

/-- What byte `a` of WBUF holds: its value, or the free value of the power-on if nothing wrote it (assumption 5). -/
def wbyte (epoch : Nat) (m : Memory) (a : Nat) : Byte :=
  match m.read a with
  | some b => b
  | none => Config.unspecifiedByte epoch a

/-- `setbit(B, i, b)` of R10. -/
def setbit (epoch : Nat) (m : Memory) (i b : Nat) : Memory :=
  m.write (i / 8)
    ((wbyte epoch m (i / 8) &&& ~~~((0x80 : Byte) >>> (i % 8))) ||| (BitVec.ofNat 8 b <<< (7 - i % 8)))

/-- `insert(B, p, w, f)` of R10: bit `j` of the field, counted from its most significant, goes to stream bit
`p + j`. -/
def insert (epoch : Nat) (m : Memory) (p : Nat) : (w f : Nat) → Memory
  | 0, _ => m
  | w + 1, f => setbit epoch (insert epoch m p w (f / 2)) (p + w) (f % 2)

/-! ## The one condition: taking it and clearing it -/

/-- `flag Overflow on X` (R13, R165): the whole of the block's response to an overflow. -/
def Cursor.flagOverflow (cur : Cursor) : Cursor := { cur with err := .overflow }

/-- Clearing (R166): the error goes and the position with it. This is what stands where other machines return from an
exception. -/
def Cursor.rewind (_ : Cursor) : Cursor := Cursor.zero

/-- A cursor after consuming or producing `w` bits of a stream of `len` bytes: flagged if they overflow, and moved by the
full `w` in every case (R80, R130). -/
def Cursor.advance (cur : Cursor) (len w : Nat) : Cursor :=
  let flagged := if overflows cur.pos.toNat w len then cur.flagOverflow else cur
  { flagged with pos := BitVec.ofNat 64 (cur.pos.toNat + w) }

/-! ## The parts of the state -/

/-- `R.ctx[c]`. -/
def State.ctx (s : State) (c : Ctx) : Cursor := s.rd.ctx[c.val]'c.isLt

/-- `R.ctx[c] <- cur`. -/
def State.setCtx (s : State) (c : Ctx) (cur : Cursor) : State :=
  { s with rd := { s.rd with ctx := s.rd.ctx.set c.val cur c.isLt } }

/-- `(W.pos, W.err) <- cur`. -/
def State.setWriterCursor (s : State) (cur : Cursor) : State :=
  { s with wr := { s.wr with cur := cur } }

/-- `WBUF <- m`. -/
def State.setWbuf (s : State) (m : Memory) : State := { s with wr := { s.wr with buf := m } }

/-- `RBUF <- m`, a move of the host. -/
def State.setRbuf (s : State) (m : Memory) : State := { s with rd := { s.rd with buf := m } }

/-- `R.len <- n` and every context `(0, None)` (42_reader_cursor.md R117). -/
def State.bindReader (s : State) (n : Word) : State :=
  { s with rd := { s.rd with len := n, ctx := Vector.replicate nctx Cursor.zero } }

/-- `W.len <- n` and `(W.pos, W.err) <- (0, None)` (43_writer.md R147). -/
def State.bindWriter (s : State) (n : Word) : State :=
  { s with wr := { s.wr with len := n, cur := Cursor.zero } }

/-- `RES <- res; AUX <- aux`: the command's response goes to the host (R60). -/
def State.respond (s : State) (res aux : Word) : State :=
  { s with responses := s.responses ++ [{ res := res, aux := aux }] }

/-! ## The common consumption step (R80) -/

/-- `consume(c, w)` of a command that returns `form raw` on RES. Legality is decided first (60_exceptions.md R164);
an RBUF byte that holds no value then faults (assumption 4). -/
def consume (c : Ctx) (w : Nat) (form : Nat → Word) (s : State) : Result :=
  requirePosition (s.ctx c).pos w
    (match extract s.rd.buf s.rd.len.toNat (s.ctx c).pos.toNat w with
    | none => .fault .rbufByteNeverWritten
    | some raw =>
      .next ((s.setCtx c ((s.ctx c).advance s.rd.len.toNat w)).respond (form raw) 0))

/-! ## The common production step (R130) -/

/-- What `produce(w, f)` leaves in WBUF: the whole field if it fits; of a field that does not, nothing, or its first bits
under `WR_PARTIAL`. -/
def produceBuf (s : State) (w f : Nat) : Memory :=
  let p := s.wr.cur.pos.toNat
  let cap := 8 * s.wr.len.toNat
  if p + w ≤ cap then insert s.epoch s.wr.buf p w f
  else if s.cfg.wrPartial = true ∧ p < cap then
    insert s.epoch s.wr.buf p (cap - p) (f / 2 ^ (w - (cap - p)))
  else s.wr.buf

/-- `produce(w, f)`, with the response 0 every producing command gives (R31). -/
def produce (w f : Nat) (s : State) : Result :=
  requirePosition s.wr.cur.pos w
    (.next (((s.setWbuf (produceBuf s w f)).setWriterCursor
      (s.wr.cur.advance s.wr.len.toNat w)).respond 0 0))

/-! ## Measures (42_reader_cursor.md R113, R114) -/

/-- The bits from position `p` to the end of a stream of `len` bytes, 0 past the end. -/
def leftBits (p len : Nat) : Nat := if p ≤ 8 * len then 8 * len - p else 0

/-- The whole bytes in what is left. -/
def leftBytes (p len : Nat) : Nat := leftBits p len / 8

/-! ## The host's direct accesses (70_reset_and_hazards.md R180, R184, R185) -/

/-- Whether the host may write byte `a` of a buffer memory of `cap` bytes whose first `len` are bound. -/
def hostWrite (cap len a : Nat) (t : State) : Result :=
  if cap ≤ a then .fault .noSuchBufferByte
  else if a < len then .refused .bufferInUse
  else .next t

/-- The host writes a byte of RBUF. -/
def hostWriteRbuf (a : Nat) (b : Byte) (s : State) : Result :=
  hostWrite s.cfg.rcap s.rd.len.toNat a (s.setRbuf (s.rd.buf.write a b))

/-- The host writes a byte of WBUF. -/
def hostWriteWbuf (a : Nat) (b : Byte) (s : State) : Result :=
  hostWrite s.cfg.wcap s.wr.len.toNat a (s.setWbuf (s.wr.buf.write a b))

/-- What the host sees at byte `a` of WBUF between commands (R185). An observation, no step. DESIGN CHOICE (assumption 10):
at an offset at or above `WCAP`, which the memory does not have (20_memory.md R40), the spec says nothing of a read; the
model answers what it answers for an unwritten byte, the free value of that offset. -/
def State.hostReadWbuf (s : State) (a : Nat) : Byte := wbyte s.epoch s.wr.buf a

/-- What the host sees at byte `a` of RBUF, if the byte holds a value. DESIGN CHOICE (assumption 10): at an offset at or
above `RCAP`, which the memory does not have, the model answers that no value is there. -/
def State.hostReadRbuf (s : State) (a : Nat) : Option Byte := s.rd.buf.read a

/-- A hardware reset of the block (R180): both units, and a new power-on for the bytes of WBUF. The parameters and the
host's own side stay (assumption 8). -/
def hardwareReset (s : State) : State :=
  { s with rd := Reader.reset, wr := Writer.reset, epoch := s.epoch + 1 }

end Sys2Proof.Machine
end

