-- ==== Sys2Proof/Machine/ReaderBytes.lean ====
section
/-! DEFINITION. Reader whole-byte commands, by the net effect of 41_reader_bytes.md R100: one field of `8k` bits, with the
bytes of the value in the command's order (R101 to R107). -/

namespace Sys2Proof.Machine

open Sys2Proof

/-- R101 `R.BYTE c`. -/
def execRByte (c : Ctx) (s : State) : Result := consume c 8 unsignedRes s

/-- R102 `R.LE16 c`. -/
def execRLe16 (c : Ctx) (s : State) : Result := consume c 16 (littleEndianRes 2) s

/-- R103 `R.BE16 c`. -/
def execRBe16 (c : Ctx) (s : State) : Result := consume c 16 unsignedRes s

/-- R104 `R.LE32 c`. -/
def execRLe32 (c : Ctx) (s : State) : Result := consume c 32 (littleEndianRes 4) s

/-- R105 `R.BE32 c`. -/
def execRBe32 (c : Ctx) (s : State) : Result := consume c 32 unsignedRes s

/-- R106 `R.LE64 c`. -/
def execRLe64 (c : Ctx) (s : State) : Result := consume c 64 (littleEndianRes 8) s

/-- R107 `R.BE64 c`. -/
def execRBe64 (c : Ctx) (s : State) : Result := consume c 64 unsignedRes s

end Sys2Proof.Machine
end

