-- ==== Sys2Proof/Machine/ReaderCursor.lean ====
section
/-! DEFINITION. Reader cursor commands: R.SKIP, R.PEEK, R.AT, R.LEFTBITS, R.LEFTBYTES, R.RESET, R.ERROR, R.NEW
(42_reader_cursor.md R110 to R117). -/

namespace Sys2Proof.Machine

open Sys2Proof

/-- R110 `R.SKIP c, bits`: no byte of RBUF is read. -/
def execRSkip (c : Ctx) (bits : Word) (s : State) : Result :=
  requirePosition (s.ctx c).pos bits.toNat
    (.next ((s.setCtx c ((s.ctx c).advance s.rd.len.toNat bits.toNat)).respond 0 0))

/-- R111 `R.PEEK src, dst`. -/
def execRPeek (src dst : Ctx) (s : State) : Result :=
  .next ((s.setCtx dst (s.ctx src)).respond 0 0)

/-- R112 `R.AT c`. -/
def execRAt (c : Ctx) (s : State) : Result := .next (s.respond (s.ctx c).pos 0)

/-- R113 `R.LEFTBITS c`. -/
def execRLeftBits (c : Ctx) (s : State) : Result :=
  .next (s.respond (BitVec.ofNat 64 (leftBits (s.ctx c).pos.toNat s.rd.len.toNat)) 0)

/-- R114 `R.LEFTBYTES c`: RES is the length of the view, AUX the offset of its first byte. -/
def execRLeftBytes (c : Ctx) (s : State) : Result :=
  let k := leftBytes (s.ctx c).pos.toNat s.rd.len.toNat
  .next (s.respond (BitVec.ofNat 64 k) (BitVec.ofNat 64 (s.rd.len.toNat - k)))

/-- R115 `R.RESET c`. -/
def execRReset (c : Ctx) (s : State) : Result :=
  .next ((s.setCtx c (s.ctx c).rewind).respond 0 0)

/-- R116 `R.ERROR c`. -/
def execRError (c : Ctx) (s : State) : Result := .next (s.respond (s.ctx c).err.code 0)

/-- R117 `R.NEW N`. -/
def execRNew (len : Word) (s : State) : Result :=
  requireCapacity len s.cfg.rcap (.next ((s.bindReader len).respond 0 0))

end Sys2Proof.Machine
end

