-- ==== Sys2Proof/Machine/ReaderField.lean ====
section
/-! DEFINITION. Reader bit-field commands: R.BIT, R.UINT8/16/32/64, R.INT8/16/32/64 (40_reader_bitfield.md R81 to R89). -/

namespace Sys2Proof.Machine

open Sys2Proof

/-- R81 `R.BIT c`. -/
def execRBit (c : Ctx) (s : State) : Result := consume c 1 unsignedRes s

/-- R82 `R.UINT8 c, w`. -/
def execRUint8 (c : Ctx) (w : Nat) (s : State) : Result := requireWidth w 8 (consume c w unsignedRes s)

/-- R83 `R.UINT16 c, w`. -/
def execRUint16 (c : Ctx) (w : Nat) (s : State) : Result := requireWidth w 16 (consume c w unsignedRes s)

/-- R84 `R.UINT32 c, w`. -/
def execRUint32 (c : Ctx) (w : Nat) (s : State) : Result := requireWidth w 32 (consume c w unsignedRes s)

/-- R85 `R.UINT64 c, w`. -/
def execRUint64 (c : Ctx) (w : Nat) (s : State) : Result := requireWidth w 64 (consume c w unsignedRes s)

/-- R86 `R.INT8 c, w`. -/
def execRInt8 (c : Ctx) (w : Nat) (s : State) : Result := requireWidth w 8 (consume c w (signedRes w) s)

/-- R87 `R.INT16 c, w`. -/
def execRInt16 (c : Ctx) (w : Nat) (s : State) : Result := requireWidth w 16 (consume c w (signedRes w) s)

/-- R88 `R.INT32 c, w`. -/
def execRInt32 (c : Ctx) (w : Nat) (s : State) : Result := requireWidth w 32 (consume c w (signedRes w) s)

/-- R89 `R.INT64 c, w`. -/
def execRInt64 (c : Ctx) (w : Nat) (s : State) : Result := requireWidth w 64 (consume c w (signedRes w) s)

end Sys2Proof.Machine
end

