-- ==== Sys2Proof/Machine/Writer.lean ====
section
/-! DEFINITION. Writer commands: W.PUTU8/16/32/64, the byte-order helpers, and the status and control commands
(43_writer.md R131 to R147). -/

namespace Sys2Proof.Machine

open Sys2Proof

/-! ## Fields (R131 to R134) -/

/-- R131 `W.PUTU8 w, value`. -/
def execWPutU8 (w : Nat) (value : Word) (s : State) : Result := requireWidth w 8 (produce w (lowBits w value) s)

/-- R132 `W.PUTU16 w, value`. -/
def execWPutU16 (w : Nat) (value : Word) (s : State) : Result := requireWidth w 16 (produce w (lowBits w value) s)

/-- R133 `W.PUTU32 w, value`. -/
def execWPutU32 (w : Nat) (value : Word) (s : State) : Result := requireWidth w 32 (produce w (lowBits w value) s)

/-- R134 `W.PUTU64 w, value`. -/
def execWPutU64 (w : Nat) (value : Word) (s : State) : Result := requireWidth w 64 (produce w (lowBits w value) s)

/-! ## Whole bytes (R135 to R142) -/

/-- R136 `W.PUTBYTE value`. -/
def execWPutByte (value : Word) (s : State) : Result := produce 8 (lowBits 8 value) s

/-- R137 `W.PUTLE16 value`. -/
def execWPutLe16 (value : Word) (s : State) : Result := produce 16 (littleEndianField 2 value) s

/-- R138 `W.PUTBE16 value`. -/
def execWPutBe16 (value : Word) (s : State) : Result := produce 16 (bigEndianField 2 value) s

/-- R139 `W.PUTLE32 value`. -/
def execWPutLe32 (value : Word) (s : State) : Result := produce 32 (littleEndianField 4 value) s

/-- R140 `W.PUTBE32 value`. -/
def execWPutBe32 (value : Word) (s : State) : Result := produce 32 (bigEndianField 4 value) s

/-- R141 `W.PUTLE64 value`. -/
def execWPutLe64 (value : Word) (s : State) : Result := produce 64 (littleEndianField 8 value) s

/-- R142 `W.PUTBE64 value`. -/
def execWPutBe64 (value : Word) (s : State) : Result := produce 64 (bigEndianField 8 value) s

/-! ## Status and control (R143 to R147) -/

/-- R143 `W.FLUSH`: nothing to finalise, the flag is returned. -/
def execWFlush (s : State) : Result := .next (s.respond s.wr.cur.err.code 0)

/-- R144 `W.ERROR`. -/
def execWError (s : State) : Result := .next (s.respond s.wr.cur.err.code 0)

/-- R145 `W.AT`. -/
def execWAt (s : State) : Result := .next (s.respond s.wr.cur.pos 0)

/-- R146 `W.RESET`. -/
def execWReset (s : State) : Result := .next ((s.setWriterCursor s.wr.cur.rewind).respond 0 0)

/-- R147 `W.NEW M`: WBUF is not cleared. -/
def execWNew (len : Word) (s : State) : Result :=
  requireCapacity len s.cfg.wcap (.next ((s.bindWriter len).respond 0 0))

end Sys2Proof.Machine
end

