-- ==== Sys2Proof/Machine/Dispatch.lean ====
section
/-! DEFINITION. One arm per command: the direct call of its meaning (30_encoding.md R72 step 5). -/

namespace Sys2Proof.Machine

open Sys2Proof

/-- What a command does. -/
def exec (i : Instr) (s : State) : Host.Outcome State Fault Refusal :=
  match i with
  | .rBit c => Sys2Proof.Machine.execRBit c s
  | .rSkip c bits => Sys2Proof.Machine.execRSkip c bits s
  | .rPeek src dst => Sys2Proof.Machine.execRPeek src dst s
  | .rAt c => Sys2Proof.Machine.execRAt c s
  | .rUint8 c w => Sys2Proof.Machine.execRUint8 c w s
  | .rUint16 c w => Sys2Proof.Machine.execRUint16 c w s
  | .rUint32 c w => Sys2Proof.Machine.execRUint32 c w s
  | .rUint64 c w => Sys2Proof.Machine.execRUint64 c w s
  | .rInt8 c w => Sys2Proof.Machine.execRInt8 c w s
  | .rInt16 c w => Sys2Proof.Machine.execRInt16 c w s
  | .rInt32 c w => Sys2Proof.Machine.execRInt32 c w s
  | .rInt64 c w => Sys2Proof.Machine.execRInt64 c w s
  | .rByte c => Sys2Proof.Machine.execRByte c s
  | .rLe16 c => Sys2Proof.Machine.execRLe16 c s
  | .rLe32 c => Sys2Proof.Machine.execRLe32 c s
  | .rLe64 c => Sys2Proof.Machine.execRLe64 c s
  | .rBe16 c => Sys2Proof.Machine.execRBe16 c s
  | .rBe32 c => Sys2Proof.Machine.execRBe32 c s
  | .rBe64 c => Sys2Proof.Machine.execRBe64 c s
  | .rLeftBits c => Sys2Proof.Machine.execRLeftBits c s
  | .rLeftBytes c => Sys2Proof.Machine.execRLeftBytes c s
  | .rReset c => Sys2Proof.Machine.execRReset c s
  | .rError c => Sys2Proof.Machine.execRError c s
  | .rNew len => Sys2Proof.Machine.execRNew len s
  | .wAt => Sys2Proof.Machine.execWAt s
  | .wPutU8 w value => Sys2Proof.Machine.execWPutU8 w value s
  | .wPutU16 w value => Sys2Proof.Machine.execWPutU16 w value s
  | .wPutU32 w value => Sys2Proof.Machine.execWPutU32 w value s
  | .wPutU64 w value => Sys2Proof.Machine.execWPutU64 w value s
  | .wPutByte value => Sys2Proof.Machine.execWPutByte value s
  | .wPutLe16 value => Sys2Proof.Machine.execWPutLe16 value s
  | .wPutLe32 value => Sys2Proof.Machine.execWPutLe32 value s
  | .wPutLe64 value => Sys2Proof.Machine.execWPutLe64 value s
  | .wPutBe16 value => Sys2Proof.Machine.execWPutBe16 value s
  | .wPutBe32 value => Sys2Proof.Machine.execWPutBe32 value s
  | .wPutBe64 value => Sys2Proof.Machine.execWPutBe64 value s
  | .wFlush => Sys2Proof.Machine.execWFlush s
  | .wReset => Sys2Proof.Machine.execWReset s
  | .wError => Sys2Proof.Machine.execWError s
  | .wNew len => Sys2Proof.Machine.execWNew len s

end Sys2Proof.Machine
end

