-- ==== Sys2Proof/Machine/Step.lean ====
section
/-! DEFINITION. One step of the machine: the host's next move takes effect (30_encoding.md R60, R72). The block itself
fetches nothing and has no program counter (10_state.md R21); a program is the list of moves the host makes. -/

namespace Sys2Proof.Machine

open Sys2Proof

/-- A host's move taken by the block. -/
def takeMove (m : HostMove) (s : State) : Result :=
  match m with
  | .command cw opd =>
    match decode cw opd with
    | .ok i => exec i s
    | .error why => .refused (.illegalEncoding why)
  | .writeRbuf a b => hostWriteRbuf a b s
  | .writeWbuf a b => hostWriteWbuf a b s
  | .hardwareReset => .next (hardwareReset s)

/-- The next pending move is taken off the list and takes effect; with none pending the block holds its state
(60_exceptions.md R169). -/
def step (s : State) : Host.Outcome State Fault Refusal :=
  match s.pending with
  | [] => .next s
  | m :: rest => takeMove m { s with pending := rest }

/-- `s` with the command of a table number as the host's next move (assumptions 2 and 15). -/
def State.withFetchWord (s : State) (nbits w : Nat) : State :=
  { s with pending := .command (tableCommand nbits w).1 (tableCommand nbits w).2 :: s.pending }

end Sys2Proof.Machine
end

