-- ==== Sys2Proof/Safety.lean ====
section
/-! DEFINITION. What counts as a sound state and a clean run of the block, in the terms statements use (10_state.md R29,
70_reset_and_hazards.md R186, R190). -/

namespace Sys2Proof

open Sys2Proof.Machine

/-- The law of 10_state.md R29 for one cursor over a stream of `len` bytes: the flag is set exactly when the position is
past the capacity. -/
abbrev Lawful (cur : Cursor) (len : Word) : Prop := cur.err = .overflow ↔ 8 * len.toNat < cur.pos.toNat

/-- Every listed byte lies inside a memory of `cap` bytes (20_memory.md R40). -/
abbrev Within (m : Memory) (cap : Nat) : Prop := ∀ x ∈ m, x.1 < cap

/-- The invariant of the machine: parameters as R5 bounds them, lengths within the capacities (R33), both memories in
canonical form and inside their capacities (R40), and R29 for every cursor. -/
structure Inv (s : State) : Prop where
  cfg : s.cfg.wf
  rlen : s.rd.len.toNat ≤ s.cfg.rcap
  wlen : s.wr.len.toNat ≤ s.cfg.wcap
  rbuf : s.rd.buf.wf
  wbuf : s.wr.buf.wf
  rwithin : Within s.rd.buf s.cfg.rcap
  wwithin : Within s.wr.buf s.cfg.wcap
  reader : ∀ c, Lawful (s.ctx c) s.rd.len
  writer : Lawful s.wr.cur s.wr.len

/-- No cursor has overflowed: the premise R190 asks of a claim that relies on buffer contents. -/
abbrev NoOverflow (s : State) : Prop := (∀ c, (s.ctx c).err = .none) ∧ s.wr.cur.err = .none

/-- A run of `n` host moves in which nothing was refused and nothing faulted (R190). -/
abbrev RunsTo (n : Nat) (s t : State) : Prop := core.run n s = .next t

/-- A clean run: nothing refused, and every flag `None` at the end (R190). -/
abbrev CleanRun (n : Nat) (s t : State) : Prop := RunsTo n s t ∧ NoOverflow t

end Sys2Proof
end

