-- ==== Sys2Proof/Certificates/Slice0/Obligations.lean ====
section
/-! DEFINITION. The statements for the provers, and first the words they are written in: the pure functions of
00_scope.md R7 to R11 as the spec prints them, over a stream given as a function from offsets to bytes, written without
the model's own operations. -/

namespace Sys2Proof.Spec

open Sys2Proof Sys2Proof.Machine

/-! ## The pure functions of 00_scope.md -/

/-- R7: `sbit(B, L, i)`. -/
def sbitOf (B : Nat → Byte) (L i : Nat) : Nat := if i < 8 * L then (B (i / 8)).toNat / 2 ^ (7 - i % 8) % 2 else 0

/-- R8: `extract(B, L, p, w)`. -/
def fieldOf (B : Nat → Byte) (L p w : Nat) : Nat := ∑ j ∈ Finset.range w, sbitOf B L (p + j) * 2 ^ (w - 1 - j)

/-- R9: `tosigned(r, w)`. -/
def signedOf (r w : Nat) : Int := if 2 ^ (w - 1) ≤ r then (r : Int) - 2 ^ w else (r : Int)

/-- R11: `be_assemble(b0..b(k-1))`. -/
def beOf (k : Nat) (b : Nat → Nat) : Nat := ∑ i ∈ Finset.range k, b i * 2 ^ (8 * (k - 1 - i))

/-- R11: `le_assemble(b0..b(k-1))`. -/
def leOf (k : Nat) (b : Nat → Nat) : Nat := ∑ i ∈ Finset.range k, b i * 2 ^ (8 * i)

/-- Byte `i` of a value, the least significant first. -/
def byteOf (v i : Nat) : Nat := v / 2 ^ (8 * i) % 256

/-! ## Premises -/

/-- Every byte that the field of `w` bits at `p` reads inside a stream of `L` bytes holds the value `B` gives it. -/
def Holds (m : Memory) (B : Nat → Byte) (L p w : Nat) : Prop :=
  ∀ i, p ≤ i → i < p + w → i < 8 * L → m.read (i / 8) = some (B (i / 8))

/-! ## Next states, written out -/

/-- `s` with the context `c` replaced. -/
def putCtx (s : State) (c : Ctx) (cur : Cursor) : State :=
  { s with rd := { s.rd with ctx := s.rd.ctx.set c.val cur c.isLt } }

/-- `s` with one more response. -/
def answer (s : State) (res aux : Word) : State := { s with responses := s.responses ++ [{ res := res, aux := aux }] }

/-- `s` after a command that consumed `w` bits on context `c` and returned `res`: the position moved by the full `w`, the
flag set if the field crosses the end and else as it was, and nothing else changed (40_reader_bitfield.md R80). -/
def afterConsume (s : State) (c : Ctx) (w : Nat) (res : Word) : State :=
  answer
    (putCtx s c
      { pos := BitVec.ofNat 64 ((s.ctx c).pos.toNat + w),
        err := if 8 * s.rd.len.toNat < (s.ctx c).pos.toNat + w then .overflow else (s.ctx c).err })
    res 0

/-- `s` after a command that produced `w` bits and left WBUF as `m` (43_writer.md R130). -/
def afterProduce (s : State) (w : Nat) (m : Memory) : State :=
  answer
    { s with wr := { s.wr with
        buf := m,
        cur := {
          pos := BitVec.ofNat 64 (s.wr.cur.pos.toNat + w),
          err := if 8 * s.wr.len.toNat < s.wr.cur.pos.toNat + w then .overflow else s.wr.cur.err } } }
    0 0

/-! ## Reading and storing a field -/

/-- The command `i` reads the `w` bits at the position of context `c` and returns `value B L p`, for a buffer `B`, a
stream of `L` bytes and a position `p`: it completes whenever the position bound holds and the bytes it reads hold
values, and its next state is `afterConsume`; where the position bound fails it is refused. -/
def Reads (i : Instr) (c : Ctx) (w : Nat) (value : (B : Nat → Byte) → (L p : Nat) → Word) : Prop :=
  (∀ (s : State) (B : Nat → Byte), (s.ctx c).pos.toNat + w < 2 ^ 64 →
    Holds s.rd.buf B s.rd.len.toNat (s.ctx c).pos.toNat w →
    exec i s = .next (afterConsume s c w (value B s.rd.len.toNat (s.ctx c).pos.toNat))) ∧
  ∀ s : State, 2 ^ 64 ≤ (s.ctx c).pos.toNat + w → exec i s = .refused .positionOutOfRange

/-- Stream bit `i` of WBUF as the host sees it. -/
def hostBit (s : State) (i : Nat) : Nat := (s.hostReadWbuf (i / 8)).toNat / 2 ^ (7 - i % 8) % 2

/-- How many bits of a field of `w` bits the command stores: all if the field fits, else none, or under `WR_PARTIAL`
those that still fit (43_writer.md R130). -/
def storedBits (s : State) (w : Nat) : Nat :=
  if s.wr.cur.pos.toNat + w ≤ 8 * s.wr.len.toNat then w
  else if s.cfg.wrPartial then 8 * s.wr.len.toNat - s.wr.cur.pos.toNat else 0

/-- The command `i` writes the field `f` of `w` bits: it completes whenever the position bound holds; its next state is
`afterProduce` for a WBUF whose stored bits are the first bits of `f`, most significant first, whose other stream bits
are as before, and whose bytes that no stored bit lies in are as before, a value or none; where the position bound fails
it is refused. -/
def Puts (i : Instr) (w f : Nat) : Prop :=
  (∀ s : State, s.wr.cur.pos.toNat + w < 2 ^ 64 →
    ∃ m, exec i s = .next (afterProduce s w m) ∧
      (∀ j < storedBits s w,
        hostBit (afterProduce s w m) (s.wr.cur.pos.toNat + j) = f / 2 ^ (w - 1 - j) % 2) ∧
      (∀ k, k < s.wr.cur.pos.toNat ∨ s.wr.cur.pos.toNat + storedBits s w ≤ k →
        hostBit (afterProduce s w m) k = hostBit s k) ∧
      (∀ a, (∀ j < storedBits s w, (s.wr.cur.pos.toNat + j) / 8 ≠ a) → m.read a = s.wr.buf.read a)) ∧
  ∀ s : State, 2 ^ 64 ≤ s.wr.cur.pos.toNat + w → exec i s = .refused .positionOutOfRange

/-! ## Kinds of command -/

/-- The command word `cw` stands for the command `i opd`, whatever the operand `opd`. -/
def Stands (cw : Nat) (i : Word → Instr) : Prop := ∀ opd : Word, decode (BitVec.ofNat 16 cw) opd = .ok (i opd)

/-- The result widths of the sized commands (00_scope.md R5). -/
inductive Size where
  | n8 | n16 | n32 | n64
  deriving DecidableEq, Repr

/-- The number of bits of a size. -/
def Size.bits : Size → Nat
  | .n8 => 8
  | .n16 => 16
  | .n32 => 32
  | .n64 => 64

/-- `OP[1:0]` of a size (30_encoding.md R62). -/
def Size.code : Size → Nat
  | .n8 => 0
  | .n16 => 1
  | .n32 => 2
  | .n64 => 3

/-- `R.UINTn c, w`. -/
def uintOf (n : Size) (c : Ctx) (w : Nat) : Instr :=
  match n with
  | .n8 => .rUint8 c w
  | .n16 => .rUint16 c w
  | .n32 => .rUint32 c w
  | .n64 => .rUint64 c w

/-- `R.INTn c, w`. -/
def intOf (n : Size) (c : Ctx) (w : Nat) : Instr :=
  match n with
  | .n8 => .rInt8 c w
  | .n16 => .rInt16 c w
  | .n32 => .rInt32 c w
  | .n64 => .rInt64 c w

/-- `W.PUTUn w, value`. -/
def putOf (n : Size) (w : Nat) (value : Word) : Instr :=
  match n with
  | .n8 => .wPutU8 w value
  | .n16 => .wPutU16 w value
  | .n32 => .wPutU32 w value
  | .n64 => .wPutU64 w value

/-- The context and the number of bits of a consuming command (60_exceptions.md R160). -/
def consumes : Instr → Option (Ctx × Nat)
  | .rBit c => some (c, 1)
  | .rSkip c bits => some (c, bits.toNat)
  | .rUint8 c w => some (c, w)
  | .rUint16 c w => some (c, w)
  | .rUint32 c w => some (c, w)
  | .rUint64 c w => some (c, w)
  | .rInt8 c w => some (c, w)
  | .rInt16 c w => some (c, w)
  | .rInt32 c w => some (c, w)
  | .rInt64 c w => some (c, w)
  | .rByte c => some (c, 8)
  | .rLe16 c => some (c, 16)
  | .rBe16 c => some (c, 16)
  | .rLe32 c => some (c, 32)
  | .rBe32 c => some (c, 32)
  | .rLe64 c => some (c, 64)
  | .rBe64 c => some (c, 64)
  | _ => none

/-- The number of bits of a producing command (R160). -/
def produces : Instr → Option Nat
  | .wPutU8 w _ => some w
  | .wPutU16 w _ => some w
  | .wPutU32 w _ => some w
  | .wPutU64 w _ => some w
  | .wPutByte _ => some 8
  | .wPutLe16 _ => some 16
  | .wPutBe16 _ => some 16
  | .wPutLe32 _ => some 32
  | .wPutBe32 _ => some 32
  | .wPutLe64 _ => some 64
  | .wPutBe64 _ => some 64
  | _ => none

/-- The commands of the writer unit (30_encoding.md R64). -/
def isWriter : Instr → Bool
  | .wAt => true
  | .wPutU8 _ _ => true
  | .wPutU16 _ _ => true
  | .wPutU32 _ _ => true
  | .wPutU64 _ _ => true
  | .wPutByte _ => true
  | .wPutLe16 _ => true
  | .wPutLe32 _ => true
  | .wPutLe64 _ => true
  | .wPutBe16 _ => true
  | .wPutBe32 _ => true
  | .wPutBe64 _ => true
  | .wFlush => true
  | .wReset => true
  | .wError => true
  | .wNew _ => true
  | _ => false

/-- A reader command that works on one context alone, moved to the context `d`; none for R.PEEK, R.NEW and the writer's
commands (10_state.md R22). -/
def moveTo (d : Ctx) : Instr → Option Instr
  | .rBit _ => some (.rBit d)
  | .rSkip _ bits => some (.rSkip d bits)
  | .rAt _ => some (.rAt d)
  | .rUint8 _ w => some (.rUint8 d w)
  | .rUint16 _ w => some (.rUint16 d w)
  | .rUint32 _ w => some (.rUint32 d w)
  | .rUint64 _ w => some (.rUint64 d w)
  | .rInt8 _ w => some (.rInt8 d w)
  | .rInt16 _ w => some (.rInt16 d w)
  | .rInt32 _ w => some (.rInt32 d w)
  | .rInt64 _ w => some (.rInt64 d w)
  | .rByte _ => some (.rByte d)
  | .rLe16 _ => some (.rLe16 d)
  | .rLe32 _ => some (.rLe32 d)
  | .rLe64 _ => some (.rLe64 d)
  | .rBe16 _ => some (.rBe16 d)
  | .rBe32 _ => some (.rBe32 d)
  | .rBe64 _ => some (.rBe64 d)
  | .rLeftBits _ => some (.rLeftBits d)
  | .rLeftBytes _ => some (.rLeftBytes d)
  | .rReset _ => some (.rReset d)
  | .rError _ => some (.rError d)
  | _ => none

/-- The command works on the context `c` alone. -/
def On (c : Ctx) (i : Instr) : Prop := moveTo c i = some i

/-- Whether the command uses its operand OPD (30_encoding.md R66). -/
def usesOpd : Instr → Bool
  | .rSkip _ _ => true
  | .rNew _ => true
  | .wNew _ => true
  | i => (produces i).isSome

/-- A next state changed by a function, a stop as it is. -/
def onNext (f : State → State) : Result → Result
  | .next t => .next (f t)
  | .fault x => .fault x
  | .refused r => .refused r

/-- Commands one after the other. -/
def execAll : List Instr → State → Result
  | [], s => .next s
  | i :: l, s =>
    match exec i s with
    | .next t => execAll l t
    | .fault f => .fault f
    | .refused r => .refused r

/-! ## The opcode table as R63, R64 and R68 print it -/

/-- A row: the columns match and mask, and the operand constraint of R68 on a state, a command word and an operand. -/
structure Row where
  mtch : CmdWord
  mask : CmdWord
  need : State → CmdWord → Word → Prop

/-- The position of the context that `CW[9:8]` names. -/
def posOf (s : State) (cw : CmdWord) : Nat := (s.ctx ⟨cw.toNat / 256 % 4, Nat.mod_lt _ (by decide)⟩).pos.toNat

/-- No constraint. -/
def free : State → CmdWord → Word → Prop := fun _ _ _ => True

/-- A reader command of a fixed width. -/
def readFixed (w : Nat) : State → CmdWord → Word → Prop := fun s cw _ => posOf s cw + w < 2 ^ 64

/-- A reader command of width `CW[6:0]`, at most `n`. -/
def readWidth (n : Nat) : State → CmdWord → Word → Prop := fun s cw _ =>
  1 ≤ cw.toNat % 128 ∧ cw.toNat % 128 ≤ n ∧ posOf s cw + cw.toNat % 128 < 2 ^ 64

/-- A writer command of a fixed width. -/
def putFixed (w : Nat) : State → CmdWord → Word → Prop := fun s _ _ => s.wr.cur.pos.toNat + w < 2 ^ 64

/-- A writer command of width `CW[6:0]`, at most `n`. -/
def putWidth (n : Nat) : State → CmdWord → Word → Prop := fun s cw _ =>
  1 ≤ cw.toNat % 128 ∧ cw.toNat % 128 ≤ n ∧ s.wr.cur.pos.toNat + cw.toNat % 128 < 2 ^ 64

/-- The reader's rows (R63). -/
def readerRows : List Row :=
  [⟨0x0000, 0xFCFF, readFixed 1⟩, ⟨0x0400, 0xFCFF, fun s cw opd => posOf s cw + opd.toNat < 2 ^ 64⟩,
   ⟨0x0800, 0xFCFC, free⟩, ⟨0x0C00, 0xFCFF, free⟩, ⟨0x1000, 0xFC80, readWidth 8⟩, ⟨0x1400, 0xFC80, readWidth 16⟩,
   ⟨0x1800, 0xFC80, readWidth 32⟩, ⟨0x1C00, 0xFC80, readWidth 64⟩, ⟨0x2000, 0xFC80, readWidth 8⟩,
   ⟨0x2400, 0xFC80, readWidth 16⟩, ⟨0x2800, 0xFC80, readWidth 32⟩, ⟨0x2C00, 0xFC80, readWidth 64⟩] ++
  [⟨0x3000, 0xFCFF, readFixed 8⟩, ⟨0x3400, 0xFCFF, readFixed 16⟩, ⟨0x3800, 0xFCFF, readFixed 32⟩,
   ⟨0x3C00, 0xFCFF, readFixed 64⟩, ⟨0x4400, 0xFCFF, readFixed 16⟩, ⟨0x4800, 0xFCFF, readFixed 32⟩,
   ⟨0x4C00, 0xFCFF, readFixed 64⟩, ⟨0x5000, 0xFCFF, free⟩, ⟨0x5400, 0xFCFF, free⟩, ⟨0x5800, 0xFCFF, free⟩,
   ⟨0x5C00, 0xFCFF, free⟩, ⟨0x6000, 0xFFFF, fun s _ opd => opd.toNat ≤ s.cfg.rcap⟩]

/-- The writer's rows (R64). -/
def writerRows : List Row :=
  [⟨0x8C00, 0xFFFF, free⟩, ⟨0x9000, 0xFF80, putWidth 8⟩, ⟨0x9400, 0xFF80, putWidth 16⟩,
   ⟨0x9800, 0xFF80, putWidth 32⟩, ⟨0x9C00, 0xFF80, putWidth 64⟩, ⟨0xB000, 0xFFFF, putFixed 8⟩,
   ⟨0xB400, 0xFFFF, putFixed 16⟩, ⟨0xB800, 0xFFFF, putFixed 32⟩, ⟨0xBC00, 0xFFFF, putFixed 64⟩] ++
  [⟨0xC400, 0xFFFF, putFixed 16⟩, ⟨0xC800, 0xFFFF, putFixed 32⟩, ⟨0xCC00, 0xFFFF, putFixed 64⟩,
   ⟨0xD400, 0xFFFF, free⟩, ⟨0xD800, 0xFFFF, free⟩, ⟨0xDC00, 0xFFFF, free⟩,
   ⟨0xE000, 0xFFFF, fun s _ opd => opd.toNat ≤ s.cfg.wcap⟩]

/-- The opcode table. -/
def table : List Row := readerRows ++ writerRows

/-- R68: the word matches a row, and the row's constraints hold. -/
def Legal (s : State) (cw : CmdWord) (opd : Word) : Prop :=
  ∃ r ∈ table, cw &&& r.mask = r.mtch ∧ r.need s cw opd

/-! ## Transfers from the reader to the writer (43_writer.md R148) -/

/-- One field carried over: its width, whether it is read signed, and the sizes of the two commands. -/
structure Transfer where
  w : Nat
  signed : Bool
  readSize : Size
  putSize : Size

/-- The widths are legal for both commands (30_encoding.md R65). -/
def Transfer.ok (x : Transfer) : Prop := 1 ≤ x.w ∧ x.w ≤ x.readSize.bits ∧ x.w ≤ x.putSize.bits

/-- The reading command of a transfer. -/
def Transfer.read (x : Transfer) (c : Ctx) : Instr :=
  if x.signed then intOf x.readSize c x.w else uintOf x.readSize c x.w

/-- The RES of the last response. -/
def lastRes (s : State) : Word := (s.responses.getLast?.map Response.res).getD 0

/-- The reads and puts of a list of transfers, each put taking as its operand the RES of the read before it. -/
def transferAll (c : Ctx) : List Transfer → State → Result
  | [], s => .next s
  | x :: l, s =>
    match exec (x.read c) s with
    | .next t =>
      match exec (putOf x.putSize x.w (lastRes t)) t with
      | .next u => transferAll c l u
      | .fault f => .fault f
      | .refused r => .refused r
    | .fault f => .fault f
    | .refused r => .refused r

/-- The bits of a list of transfers together. -/
def totalBits (l : List Transfer) : Nat := (l.map Transfer.w).sum

end Sys2Proof.Spec

open Sys2Proof Sys2Proof.Machine Sys2Proof.Spec

/-! # Encoding and the step -/

/-- A few of the words 95_test_vectors.md V10 writes out decode to the commands they stand for. -/
def Obligations.PrintedWordsDecodeRight : Prop :=
  decode 0x0300 0 = .ok (.rBit 3) ∧
  decode 0x0A03 0 = .ok (.rPeek 2 3) ∧
  decode 0x1A14 0 = .ok (.rUint32 2 20) ∧
  decode 0x2F40 0 = .ok (.rInt64 3 64) ∧
  decode 0x4800 0 = .ok (.rBe32 0) ∧
  decode 0x5E00 0 = .ok (.rError 2) ∧
  decode 0x940C 0x234 = .ok (.wPutU16 12 0x234) ∧
  decode 0xBC00 5 = .ok (.wPutLe64 5) ∧
  decode 0xE000 9 = .ok (.wNew 9) ∧
  decode 0x4000 0 = .error .reservedOp ∧
  decode 0x0080 0 = .error .zBitSet ∧
  decode 0x0804 0 = .error .nonZeroPeekBits ∧
  decode 0x6100 1 = .error .nonZeroCtx

/-- Every well-formed command is what its encoding decodes to, with every operand. -/
def Obligations.EncodeThenDecodeIsIdentity : Prop :=
  ∀ i : Instr, i.wf = true → decode (encode i).1 (encode i).2 = .ok i

/-- A command word that decodes is the one its command encodes to, and the operand is kept where R66 uses it. -/
def Obligations.DecodeThenEncodeIsIdentity : Prop :=
  ∀ (cw : CmdWord) (opd : Word) (i : Instr), decode cw opd = .ok i →
    (encode i).1 = cw ∧ (encode i).2 = if usesOpd i then opd else 0

/-- R68: at most one row matches a word; a legal command is not refused and an illegal one is, which leaves no state at
all. -/
def Obligations.RefusedExactlyWhenIllegal : Prop :=
  table.Pairwise (fun x y => ∀ cw : CmdWord, ¬(cw &&& x.mask = x.mtch ∧ cw &&& y.mask = y.mtch)) ∧
  ∀ (s : State) (cw : CmdWord) (opd : Word) (rest : List HostMove), s.pending = .command cw opd :: rest →
    ((∃ r, step s = .refused r) ↔ ¬Legal s cw opd)

/-- A step takes the host's next move off the list; a command that decodes runs as `exec` of it, one that does not is
refused by the name of what is wrong with it. -/
def Obligations.StepRunsTheDecodedCommand : Prop :=
  ∀ (s : State) (cw : CmdWord) (opd : Word) (rest : List HostMove), s.pending = .command cw opd :: rest →
    (∀ i, decode cw opd = .ok i → step s = exec i { s with pending := rest }) ∧
    (∀ why, decode cw opd = .error why → step s = .refused (.illegalEncoding why))

/-- The model's choice (assumption 2): with no move pending the block holds its state. -/
def Obligations.IdleStepHoldsState : Prop := ∀ s : State, s.pending = [] → step s = .next s

/-- What a step leaves of the host's side and the parameters: the parameters are fixed; the power-on counter moves at a
hardware reset alone; one move is taken; a command adds exactly one response and every other move none. -/
def Obligations.StepTakesOneMoveAndAnswersOnce : Prop :=
  ∀ (s t : State) (m : HostMove) (rest : List HostMove), s.pending = m :: rest → step s = .next t →
    t.cfg = s.cfg ∧ t.pending = rest ∧
    (t.epoch = if m = .hardwareReset then s.epoch + 1 else s.epoch) ∧
    match m with
    | .command _ _ => ∃ r, t.responses = s.responses ++ [r]
    | _ => t.responses = s.responses

/-! # Reset and the host's direct accesses -/

/-- The machine after reset: the values of R33's hardware-reset column, no byte of either buffer with a value, and the
host's side empty (the host's side and the capacities are the model's choices, assumptions 1 to 3). -/
def Obligations.ResetStateValues : Prop :=
  State.reset.rd.len = 0 ∧ (∀ c, State.reset.ctx c = ⟨0, .none⟩) ∧
  State.reset.wr.len = 0 ∧ State.reset.wr.cur = ⟨0, .none⟩ ∧
  (∀ a, State.reset.rd.buf.read a = none) ∧ (∀ a, State.reset.wr.buf.read a = none) ∧
  State.reset.cfg.wrPartial = false ∧ State.reset.pending = [] ∧ State.reset.responses = []

/-- A hardware reset in any state (a move of the model's host, assumption 8) gives both units R33's reset values, which are
those R.NEW 0 and W.NEW 0 then leave unchanged, and every consuming or producing command of at least one bit that
completes after it sets its flag. -/
def Obligations.HardwareResetFromAnyState : Prop :=
  ∀ (s : State) (rest : List HostMove), s.pending = .hardwareReset :: rest →
    ∃ t, step s = .next t ∧
      t.rd.len = 0 ∧ (∀ c, t.ctx c = ⟨0, .none⟩) ∧ t.wr.len = 0 ∧ t.wr.cur = ⟨0, .none⟩ ∧
      (∀ a, t.rd.buf.read a = none) ∧ (∀ a, t.wr.buf.read a = none) ∧
      t.cfg = s.cfg ∧ t.pending = rest ∧ t.responses = s.responses ∧
      exec (.rNew 0) t = .next (answer t 0 0) ∧ exec (.wNew 0) t = .next (answer t 0 0) ∧
      (∀ i c w u, consumes i = some (c, w) → 0 < w → exec i t = .next u → (u.ctx c).err = .overflow) ∧
      (∀ i w u, produces i = some w → 0 < w → exec i t = .next u → u.wr.cur.err = .overflow)

/-- The host writes a byte of RBUF at an offset that exists and is not bound: that byte holds the value, and nothing else
changes; a bound byte is refused and an offset the memory does not have faults (assumptions 6 and 7). -/
def Obligations.HostWritesRbufOutsideTheStream : Prop :=
  ∀ (s : State) (a : Nat) (b : Byte) (rest : List HostMove), s.pending = .writeRbuf a b :: rest →
    (a < s.cfg.rcap → s.rd.len.toNat ≤ a →
      ∃ m, step s = .next { s with rd := { s.rd with buf := m }, pending := rest } ∧
        m.read a = some b ∧ ∀ k, k ≠ a → m.read k = s.rd.buf.read k) ∧
    (a < s.cfg.rcap → a < s.rd.len.toNat → step s = .refused .bufferInUse) ∧
    (s.cfg.rcap ≤ a → step s = .fault .noSuchBufferByte)

/-- The same for WBUF (assumptions 6 and 7). -/
def Obligations.HostWritesWbufOutsideTheStream : Prop :=
  ∀ (s : State) (a : Nat) (b : Byte) (rest : List HostMove), s.pending = .writeWbuf a b :: rest →
    (a < s.cfg.wcap → s.wr.len.toNat ≤ a →
      ∃ m, step s = .next { s with wr := { s.wr with buf := m }, pending := rest } ∧
        m.read a = some b ∧ ∀ k, k ≠ a → m.read k = s.wr.buf.read k) ∧
    (a < s.cfg.wcap → a < s.wr.len.toNat → step s = .refused .bufferInUse) ∧
    (s.cfg.wcap ≤ a → step s = .fault .noSuchBufferByte)

/-! # What each reader command does -/

/-- R81: the word, the bit returned, the cursor after it. -/
def Obligations.BitReadsOneStreamBit : Prop :=
  ∀ c : Ctx, Stands (0x0000 + 0x100 * c.val) (fun _ => .rBit c) ∧
    Reads (.rBit c) c 1 (fun B L p => BitVec.ofNat 64 (sbitOf B L p))

/-- R82 to R85, `n` = 8, 16, 32, 64: the word, the field returned unsigned, and the refusal of every other width. -/
def Obligations.UintReadsUnsignedField : Prop :=
  ∀ (n : Size) (c : Ctx) (w : Nat),
    (w < 128 → Stands (0x1000 + 0x400 * n.code + 0x100 * c.val + w) (fun _ => uintOf n c w)) ∧
    (1 ≤ w → w ≤ n.bits → Reads (uintOf n c w) c w (fun B L p => BitVec.ofNat 64 (fieldOf B L p w))) ∧
    (w = 0 ∨ n.bits < w → ∀ s, exec (uintOf n c w) s = .refused .widthOutOfRange)

/-- R86 to R89, `n` = 8, 16, 32, 64: the word, the field returned with its sign, and the refusal of every other width. -/
def Obligations.IntReadsSignedField : Prop :=
  ∀ (n : Size) (c : Ctx) (w : Nat),
    (w < 128 → Stands (0x2000 + 0x400 * n.code + 0x100 * c.val + w) (fun _ => intOf n c w)) ∧
    (1 ≤ w → w ≤ n.bits →
      Reads (intOf n c w) c w (fun B L p => BitVec.ofInt 64 (signedOf (fieldOf B L p w) w))) ∧
    (w = 0 ∨ n.bits < w → ∀ s, exec (intOf n c w) s = .refused .widthOutOfRange)

/-- R101, R103, R105, R107: the words, and the bytes read, the first the most significant. -/
def Obligations.ByteAndBigEndianReads : Prop :=
  ∀ c : Ctx,
    Stands (0x3000 + 0x100 * c.val) (fun _ => .rByte c) ∧ Stands (0x4400 + 0x100 * c.val) (fun _ => .rBe16 c) ∧
    Stands (0x4800 + 0x100 * c.val) (fun _ => .rBe32 c) ∧ Stands (0x4C00 + 0x100 * c.val) (fun _ => .rBe64 c) ∧
    Reads (.rByte c) c 8 (fun B L p => BitVec.ofNat 64 (fieldOf B L p 8)) ∧
    Reads (.rBe16 c) c 16 (fun B L p => BitVec.ofNat 64 (beOf 2 fun i => fieldOf B L (p + 8 * i) 8)) ∧
    Reads (.rBe32 c) c 32 (fun B L p => BitVec.ofNat 64 (beOf 4 fun i => fieldOf B L (p + 8 * i) 8)) ∧
    Reads (.rBe64 c) c 64 (fun B L p => BitVec.ofNat 64 (beOf 8 fun i => fieldOf B L (p + 8 * i) 8))

/-- R102, R104, R106: the words, and the bytes read, the first the least significant. -/
def Obligations.LittleEndianReads : Prop :=
  ∀ c : Ctx,
    Stands (0x3400 + 0x100 * c.val) (fun _ => .rLe16 c) ∧ Stands (0x3800 + 0x100 * c.val) (fun _ => .rLe32 c) ∧
    Stands (0x3C00 + 0x100 * c.val) (fun _ => .rLe64 c) ∧
    Reads (.rLe16 c) c 16 (fun B L p => BitVec.ofNat 64 (leOf 2 fun i => fieldOf B L (p + 8 * i) 8)) ∧
    Reads (.rLe32 c) c 32 (fun B L p => BitVec.ofNat 64 (leOf 4 fun i => fieldOf B L (p + 8 * i) 8)) ∧
    Reads (.rLe64 c) c 64 (fun B L p => BitVec.ofNat 64 (leOf 8 fun i => fieldOf B L (p + 8 * i) 8))

/-- R110: the word; the position moves and the flag follows R80's rule, whatever RBUF holds; past the position bound the
command is refused; in a state that meets the invariant a skip of no bits changes nothing. -/
def Obligations.SkipAdvancesWithoutReading : Prop :=
  (∀ c : Ctx, Stands (0x0400 + 0x100 * c.val) (.rSkip c)) ∧
  ∀ (s : State) (c : Ctx) (bits : Word),
    ((s.ctx c).pos.toNat + bits.toNat < 2 ^ 64 → exec (.rSkip c bits) s = .next (afterConsume s c bits.toNat 0)) ∧
    (2 ^ 64 ≤ (s.ctx c).pos.toNat + bits.toNat → exec (.rSkip c bits) s = .refused .positionOutOfRange) ∧
    (Inv s → exec (.rSkip c 0) s = .next (answer s 0 0))

/-- R111: the word; the destination becomes a copy of the source; nothing else changes, the source included; and where
the two are the same context nothing at all. -/
def Obligations.PeekCopiesTheCursor : Prop :=
  (∀ src dst : Ctx, Stands (0x0800 + 0x100 * src.val + dst.val) (fun _ => .rPeek src dst)) ∧
  ∀ (s : State) (src dst : Ctx), exec (.rPeek src dst) s = .next (answer (putCtx s dst (s.ctx src)) 0 0) ∧
    (putCtx s dst (s.ctx src)).ctx src = s.ctx src ∧
    (∀ d, d ≠ dst → (putCtx s dst (s.ctx src)).ctx d = s.ctx d) ∧ (src = dst → putCtx s dst (s.ctx src) = s)

/-- R112, R113, R114, R116: the words; the reports change nothing and return what the rules say. -/
def Obligations.ReaderReportsStateOnly : Prop :=
  (∀ c : Ctx, Stands (0x0C00 + 0x100 * c.val) (fun _ => .rAt c) ∧
    Stands (0x5000 + 0x100 * c.val) (fun _ => .rLeftBits c) ∧
    Stands (0x5400 + 0x100 * c.val) (fun _ => .rLeftBytes c) ∧
    Stands (0x5C00 + 0x100 * c.val) (fun _ => .rError c)) ∧
  ∀ (s : State) (c : Ctx),
    let p := (s.ctx c).pos.toNat
    let left := if p ≤ 8 * s.rd.len.toNat then 8 * s.rd.len.toNat - p else 0
    exec (.rAt c) s = .next (answer s (s.ctx c).pos 0) ∧
    exec (.rLeftBits c) s = .next (answer s (BitVec.ofNat 64 left) 0) ∧
    exec (.rLeftBytes c) s =
      .next (answer s (BitVec.ofNat 64 (left / 8)) (BitVec.ofNat 64 (s.rd.len.toNat - left / 8))) ∧
    exec (.rError c) s = .next (answer s (if (s.ctx c).err = .overflow then 1 else 0) 0)

/-- R113 and R114 in numbers, where the lengths are within R5's bound: position and bits left add up to the whole stream
exactly when the cursor is not past the end, and the view of the bytes left ends at the end and starts at the first byte
boundary at or after the cursor. -/
def Obligations.LeftMeasuresAreExact : Prop :=
  ∀ (s t u : State) (c : Ctx) (x y : Response), Inv s →
    exec (.rLeftBits c) s = .next t → t.responses = s.responses ++ [x] →
    exec (.rLeftBytes c) s = .next u → u.responses = s.responses ++ [y] →
    ((s.ctx c).pos.toNat + x.res.toNat = 8 * s.rd.len.toNat ↔ (s.ctx c).pos.toNat ≤ 8 * s.rd.len.toNat) ∧
    y.res.toNat = x.res.toNat / 8 ∧ y.aux.toNat + y.res.toNat = s.rd.len.toNat ∧
    ((s.ctx c).pos.toNat ≤ 8 * s.rd.len.toNat → y.aux.toNat = ((s.ctx c).pos.toNat + 7) / 8)

/-- R115: the word, and the one context rewound. -/
def Obligations.ReaderResetRewindsOneContext : Prop :=
  ∀ c : Ctx, Stands (0x5800 + 0x100 * c.val) (fun _ => .rReset c) ∧
    ∀ s : State, exec (.rReset c) s = .next (answer (putCtx s c ⟨0, .none⟩) 0 0)

/-- R117: the word; within the capacity the stream is bound and every context is `(0, None)`, RBUF as it was; above it the
command is refused. -/
def Obligations.ReaderNewBindsAndClearsAll : Prop :=
  Stands 0x6000 .rNew ∧
  ∀ (s : State) (n : Word),
    (n.toNat ≤ s.cfg.rcap → ∃ t, exec (.rNew n) s = .next (answer t 0 0) ∧
      t = { s with rd := { len := n, buf := s.rd.buf, ctx := t.rd.ctx } } ∧ ∀ c, t.ctx c = ⟨0, .none⟩) ∧
    (s.cfg.rcap < n.toNat → exec (.rNew n) s = .refused .lengthAboveCapacity)

/-! # What each writer command does -/

/-- R131 to R134, `n` = 8, 16, 32, 64: the word, the low `w` bits of the operand stored by R130's step, and the refusal of
every other width. -/
def Obligations.PutuWritesLowBits : Prop :=
  ∀ (n : Size) (w : Nat),
    (w < 128 → Stands (0x9000 + 0x400 * n.code + w) (putOf n w)) ∧
    ∀ value : Word, (1 ≤ w → w ≤ n.bits → Puts (putOf n w value) w (value.toNat % 2 ^ w)) ∧
      (w = 0 ∨ n.bits < w → ∀ s, exec (putOf n w value) s = .refused .widthOutOfRange)

/-- R136, R138, R140, R142: the words, and the operand's bytes stored, the most significant first. -/
def Obligations.ByteAndBigEndianPuts : Prop :=
  (Stands 0xB000 .wPutByte ∧ Stands 0xC400 .wPutBe16 ∧ Stands 0xC800 .wPutBe32 ∧ Stands 0xCC00 .wPutBe64) ∧
  ∀ value : Word,
    Puts (.wPutByte value) 8 (value.toNat % 2 ^ 8) ∧ Puts (.wPutBe16 value) 16 (value.toNat % 2 ^ 16) ∧
    Puts (.wPutBe32 value) 32 (value.toNat % 2 ^ 32) ∧ Puts (.wPutBe64 value) 64 value.toNat

/-- R137, R139, R141: the words, and the operand's bytes stored, the least significant first. -/
def Obligations.LittleEndianPuts : Prop :=
  (Stands 0xB400 .wPutLe16 ∧ Stands 0xB800 .wPutLe32 ∧ Stands 0xBC00 .wPutLe64) ∧
  ∀ value : Word,
    Puts (.wPutLe16 value) 16 (beOf 2 (byteOf value.toNat)) ∧ Puts (.wPutLe32 value) 32 (beOf 4 (byteOf value.toNat)) ∧
    Puts (.wPutLe64 value) 64 (beOf 8 (byteOf value.toNat))

/-- R143, R144, R145: the words; the reports change nothing, and W.FLUSH and W.ERROR give the same value. -/
def Obligations.WriterReportsStateOnly : Prop :=
  (Stands 0xD400 (fun _ => .wFlush) ∧ Stands 0xDC00 (fun _ => .wError) ∧ Stands 0x8C00 (fun _ => .wAt)) ∧
  ∀ s : State,
    exec .wFlush s = .next (answer s (if s.wr.cur.err = .overflow then 1 else 0) 0) ∧
    exec .wError s = .next (answer s (if s.wr.cur.err = .overflow then 1 else 0) 0) ∧
    exec .wAt s = .next (answer s s.wr.cur.pos 0)

/-- R146, R147: the words; the cursor goes to `(0, None)`; W.NEW also binds a length, up to the capacity; WBUF keeps its
bytes. -/
def Obligations.WriterResetAndNewKeepTheBuffer : Prop :=
  (Stands 0xD800 (fun _ => .wReset) ∧ Stands 0xE000 .wNew) ∧
  ∀ s : State,
    exec .wReset s = .next (answer { s with wr := { s.wr with cur := ⟨0, .none⟩ } } 0 0) ∧
    ∀ n : Word,
      (n.toNat ≤ s.cfg.wcap →
        exec (.wNew n) s = .next (answer { s with wr := { len := n, buf := s.wr.buf, cur := ⟨0, .none⟩ } } 0 0)) ∧
      (s.cfg.wcap < n.toNat → exec (.wNew n) s = .refused .lengthAboveCapacity)

/-! # Where a command does not complete -/

/-- A legal command that returns stream data faults exactly when some byte it reads inside the stream holds no value
(93_implementation_defined.md U9, assumption 4). -/
def Obligations.UnwrittenByteFaults : Prop :=
  ∀ (s : State) (i : Instr) (c : Ctx) (w : Nat), i.wf = true → consumes i = some (c, w) → (∀ n, i ≠ .rSkip c n) →
    (s.ctx c).pos.toNat + w < 2 ^ 64 →
    (exec i s = .fault .rbufByteNeverWritten ↔
      ∃ k, (s.ctx c).pos.toNat ≤ k ∧ k < (s.ctx c).pos.toNat + w ∧ k < 8 * s.rd.len.toNat ∧
        s.rd.buf.read (k / 8) = none)

/-! # The one condition -/

/-- R160: the flag of the cursor that consumes or produces is set exactly under the strict condition; no other command sets
a flag, though R.PEEK copies one; a consumption of no bits, which only R.SKIP can be, sets no flag that the invariant does
not already have set. -/
def Obligations.OverflowExactlyWhenPastTheEnd : Prop :=
  ∀ (s t : State) (i : Instr), exec i s = .next t →
    (∀ c w, consumes i = some (c, w) →
      ((t.ctx c).err = .overflow ↔ (s.ctx c).err = .overflow ∨ 8 * s.rd.len.toNat < (s.ctx c).pos.toNat + w) ∧
      (∀ d, d ≠ c → (t.ctx d).err = (s.ctx d).err) ∧ t.wr.cur.err = s.wr.cur.err) ∧
    (∀ w, produces i = some w →
      (t.wr.cur.err = .overflow ↔ s.wr.cur.err = .overflow ∨ 8 * s.wr.len.toNat < s.wr.cur.pos.toNat + w) ∧
      ∀ d, (t.ctx d).err = (s.ctx d).err) ∧
    (consumes i = none → produces i = none →
      (t.wr.cur.err = .overflow → s.wr.cur.err = .overflow) ∧
      ∀ d, (t.ctx d).err = .overflow →
        (s.ctx d).err = .overflow ∨ ∃ src, i = .rPeek src d ∧ (s.ctx src).err = .overflow) ∧
    (∀ c, consumes i = some (c, 0) → i = .rSkip c 0 ∧ (Inv s → t.ctx c = s.ctx c)) ∧ produces i ≠ some 0

/-- After an overflow, in a state that meets the invariant: every later consuming command on that context returns 0, every
later producing command stores nothing, and the flag stays. -/
def Obligations.AfterOverflowZerosAndNoStores : Prop :=
  ∀ (s t : State) (i : Instr), Inv s → exec i s = .next t →
    (∀ c w, consumes i = some (c, w) → (s.ctx c).err = .overflow →
      t.responses = s.responses ++ [⟨0, 0⟩] ∧ (t.ctx c).err = .overflow) ∧
    (∀ w, produces i = some w → s.wr.cur.err = .overflow →
      (∀ a, t.wr.buf.read a = s.wr.buf.read a) ∧ t.wr.cur.err = .overflow)

/-- R166: a flag is cleared only by the commands and the reset it lists, and then the position is 0 or, for R.PEEK, at or
below the capacity. -/
def Obligations.FlagClearedOnlyByRewinds : Prop :=
  ∀ (s t : State) (m : HostMove) (rest : List HostMove), Inv s → s.pending = m :: rest → step s = .next t →
    (∀ c, (s.ctx c).err = .overflow → (t.ctx c).err = .none →
      (t.ctx c).pos.toNat ≤ 8 * t.rd.len.toNat ∧
      (((t.ctx c).pos = 0 ∧ m = .hardwareReset) ∨
        ∃ cw opd, m = .command cw opd ∧
          (((t.ctx c).pos = 0 ∧ decode cw opd = .ok (.rReset c)) ∨
           ((t.ctx c).pos = 0 ∧ ∃ n, decode cw opd = .ok (.rNew n)) ∨
           ∃ src, decode cw opd = .ok (.rPeek src c) ∧ (s.ctx src).err = .none))) ∧
    (s.wr.cur.err = .overflow → t.wr.cur.err = .none →
      t.wr.cur.pos = 0 ∧
      (m = .hardwareReset ∨
        ∃ cw opd, m = .command cw opd ∧ (decode cw opd = .ok .wReset ∨ ∃ n, decode cw opd = .ok (.wNew n))))

/-- R23 and R26: no command but R.RESET, R.NEW and an R.PEEK into it decreases a context's position, and none but W.RESET
and W.NEW the writer's. -/
def Obligations.PositionsNeverDecrease : Prop :=
  ∀ (s t : State) (i : Instr), exec i s = .next t →
    (∀ c, i ≠ .rReset c → (∀ n, i ≠ .rNew n) → (∀ src, i ≠ .rPeek src c) →
      (s.ctx c).pos.toNat ≤ (t.ctx c).pos.toNat) ∧
    (i ≠ .wReset → (∀ n, i ≠ .wNew n) → s.wr.cur.pos.toNat ≤ t.wr.cur.pos.toNat)

/-- No command but R.ERROR, W.ERROR and W.FLUSH depends on a flag (R24, R27): with any flags in place of its own, the
command completes too, with the same response, positions, lengths and buffers. -/
def Obligations.OnlyReportsReadTheFlags : Prop :=
  ∀ (s t : State) (i : Instr) (e : Ctx → ErrState) (f : ErrState) (s' : State), exec i s = .next t →
    (∀ c, i ≠ .rError c) → i ≠ .wError → i ≠ .wFlush →
    s' = { s with
      rd := { s.rd with ctx := s'.rd.ctx },
      wr := { s.wr with cur := { s.wr.cur with err := f } } } →
    (∀ c, s'.ctx c = { s.ctx c with err := e c }) →
    ∃ t', exec i s' = .next t' ∧ t'.responses = t.responses ∧ t'.rd.len = t.rd.len ∧ t'.rd.buf = t.rd.buf ∧
      (∀ c, (t'.ctx c).pos = (t.ctx c).pos) ∧ t'.wr.len = t.wr.len ∧ t'.wr.buf = t.wr.buf ∧
      t'.wr.cur.pos = t.wr.cur.pos

/-! # Invariants -/

/-- Every step keeps the invariant: R5's bounds, the lengths within the capacities, both memories canonical and inside
their capacities, and R29's law of flag and position for every cursor. -/
def Obligations.EveryStepKeepsTheInvariant : Prop := ∀ s t : State, Inv s → step s = .next t → Inv t

/-- The invariant holds after reset, with the capacities the model names for it (assumption 1). -/
def Obligations.ResetMeetsTheInvariant : Prop := Inv State.reset

/-! # Frames -/

/-- What a reader command leaves alone: the writer and WBUF, RBUF, the parameters, the host's moves; R.len but for R.NEW;
every context but its own, or the destination of R.PEEK, or all for R.NEW; and the contexts altogether for a report. Its
response is one, with AUX 0 but for R.LEFTBYTES. -/
def Obligations.ReaderCommandFrame : Prop :=
  ∀ (s t : State) (i : Instr), isWriter i = false → exec i s = .next t →
    t.wr = s.wr ∧ t.rd.buf = s.rd.buf ∧ t.cfg = s.cfg ∧ t.epoch = s.epoch ∧ t.pending = s.pending ∧
    ((∀ n, i ≠ .rNew n) → t.rd.len = s.rd.len) ∧
    (∀ c d, On c i → d ≠ c → t.ctx d = s.ctx d) ∧
    (∀ src dst d, i = .rPeek src dst → d ≠ dst → t.ctx d = s.ctx d) ∧
    (∀ c, i = .rAt c ∨ i = .rLeftBits c ∨ i = .rLeftBytes c ∨ i = .rError c → t.rd = s.rd) ∧
    ∃ x, t.responses = s.responses ++ [x] ∧ ((∀ c, i ≠ .rLeftBytes c) → x.aux = 0)

/-- What a writer command leaves alone: the reader and RBUF, the parameters, the host's moves; W.len but for W.NEW; WBUF
but for a producing command; the cursor for a report. Its response is one, with AUX 0. -/
def Obligations.WriterCommandFrame : Prop :=
  ∀ (s t : State) (i : Instr), isWriter i = true → exec i s = .next t →
    t.rd = s.rd ∧ t.cfg = s.cfg ∧ t.epoch = s.epoch ∧ t.pending = s.pending ∧
    ((∀ n, i ≠ .wNew n) → t.wr.len = s.wr.len) ∧
    (produces i = none → t.wr.buf = s.wr.buf) ∧
    (i = .wAt ∨ i = .wFlush ∨ i = .wError → t.wr = s.wr) ∧
    ∃ x, t.responses = s.responses ++ [x] ∧ x.aux = 0

/-- Where a producing command stores: in no byte at or past W.len (R28), in no byte outside `p div 8 .. (p+w-1) div 8`
(R46), in no stream bit outside its field (R130), and nowhere when the field does not fit and `WR_PARTIAL` is false. -/
def Obligations.PutStoresOnlyInItsField : Prop :=
  ∀ (s t : State) (i : Instr) (w : Nat), produces i = some w → exec i s = .next t →
    (∀ a, s.wr.len.toNat ≤ a → t.wr.buf.read a = s.wr.buf.read a) ∧
    (∀ a, a < s.wr.cur.pos.toNat / 8 ∨ (s.wr.cur.pos.toNat + w - 1) / 8 < a →
      t.wr.buf.read a = s.wr.buf.read a) ∧
    (∀ k, k < s.wr.cur.pos.toNat ∨ s.wr.cur.pos.toNat + w ≤ k → hostBit t k = hostBit s k) ∧
    (8 * s.wr.len.toNat < s.wr.cur.pos.toNat + w → s.cfg.wrPartial = false →
      ∀ a, t.wr.buf.read a = s.wr.buf.read a)

/-- R52: a stored bit stays: commands that neither rewind nor rebind the writer leave every stream bit before W.pos as it
was, the host's view of it. -/
def Obligations.EarlierBitsStay : Prop :=
  ∀ (s t : State) (l : List Instr), (∀ i ∈ l, i ≠ .wReset ∧ ∀ n, i ≠ .wNew n) → execAll l s = .next t →
    ∀ k, k < s.wr.cur.pos.toNat → hostBit t k = hostBit s k

/-- R41: no command depends on the bytes of RBUF at or past R.len. -/
def Obligations.BytesPastTheStreamNeverRead : Prop :=
  ∀ (s t : State) (i : Instr) (m : Memory), (∀ a, a < s.rd.len.toNat → m.read a = s.rd.buf.read a) →
    exec i s = .next t →
    exec i { s with rd := { s.rd with buf := m } } = .next { t with rd := { t.rd with buf := m } }

/-! # Laws of the command set -/

/-- R90: (a) sign extension, (b) two reads and one, (c) the size only bounds the width, (d) no read depends on the flag. -/
def Obligations.BitFieldReadLaws : Prop :=
  (∀ (s t : State) (c : Ctx) (w : Nat) (n : Size) (x : Response),
    exec (uintOf n c w) s = .next t → t.responses = s.responses ++ [x] →
    ∃ y : Word, exec (intOf n c w) s = .next { t with responses := s.responses ++ [⟨y, 0⟩] } ∧
      y = BitVec.ofInt 64 (if x.res.toNat < 2 ^ (w - 1) then (x.res.toNat : Int) else x.res.toNat - 2 ^ w)) ∧
  (∀ (s t : State) (c : Ctx) (a b : Nat) (n m k : Size) (x y : Response), 1 ≤ a → a ≤ n.bits → 1 ≤ b → b ≤ m.bits →
    a + b ≤ k.bits →
    execAll [uintOf n c a, uintOf m c b] s = .next t → t.responses = s.responses ++ [x, y] →
    exec (uintOf k c (a + b)) s =
      .next { t with responses := s.responses ++ [⟨BitVec.ofNat 64 (x.res.toNat * 2 ^ b + y.res.toNat), 0⟩] }) ∧
  (∀ (s : State) (c : Ctx) (w : Nat) (n m : Size), w ≤ n.bits → w ≤ m.bits →
    exec (uintOf n c w) s = exec (uintOf m c w) s) ∧
  (∀ (s t : State) (c : Ctx) (w : Nat) (n : Size) (e : ErrState), exec (uintOf n c w) s = .next t →
    ∃ t', exec (uintOf n c w) (putCtx s c { s.ctx c with err := e }) = .next t' ∧ t'.responses = t.responses ∧
      (t'.ctx c).pos = (t.ctx c).pos)

/-- R108: the helper of `k` bytes returns the assembly of what `k` R.BYTE commands return, in its order, and leaves the
same cursor. -/
def Obligations.HelpersEqualByteReads : Prop :=
  ∀ (s b : State) (c : Ctx) (k : Nat) (le be : Instr),
    (k, le, be) ∈ [(2, .rLe16 c, .rBe16 c), (4, .rLe32 c, .rBe32 c), (8, .rLe64 c, .rBe64 c)] →
    execAll (List.replicate k (.rByte c)) s = .next b →
    ∃ v : Nat → Word, b.responses = s.responses ++ (List.range k).map (fun i => ⟨v i, 0⟩) ∧
      exec be s =
        .next { b with responses := s.responses ++ [⟨BitVec.ofNat 64 (beOf k fun i => (v i).toNat), 0⟩] } ∧
      exec le s =
        .next { b with responses := s.responses ++ [⟨BitVec.ofNat 64 (leOf k fun i => (v i).toNat), 0⟩] }

/-- R118: (a) nothing done on a snapshot moves the original; (b) nothing done on the original moves a snapshot; (c) a
snapshot answers as the original would; (d) R.PEEK back commits. -/
def Obligations.SnapshotLaws : Prop :=
  (∀ (s t : State) (src dst : Ctx) (l : List Instr), dst ≠ src → (∀ i ∈ l, i = .rPeek src dst ∨ On dst i) →
    execAll l s = .next t → t.ctx src = s.ctx src) ∧
  (∀ (s t : State) (src dst : Ctx) (i : Instr), dst ≠ src → (On src i ∨ ∃ d, d ≠ dst ∧ i = .rPeek src d) →
    exec i s = .next t → t.ctx dst = s.ctx dst) ∧
  (∀ (s t a : State) (src dst : Ctx) (l l' : List Instr), exec (.rPeek src dst) s = .next t →
    l.map (moveTo dst) = l'.map some → (∀ i ∈ l, On src i) → execAll l t = .next a →
    ∃ (b : State) (rs : List Response), execAll l' t = .next b ∧ b.ctx dst = a.ctx src ∧
      a.responses = t.responses ++ rs ∧ b.responses = t.responses ++ rs) ∧
  (∀ (s t : State) (src dst : Ctx), exec (.rPeek dst src) s = .next t → t.ctx src = s.ctx dst)

/-- R48: after R.RESET a sequence of commands on the context returns what it returned the first time. -/
def Obligations.ReplayAfterResetIsTheSame : Prop :=
  ∀ (s a b : State) (c : Ctx) (l : List Instr), s.ctx c = ⟨0, .none⟩ → (∀ i ∈ l, On c i) → execAll l s = .next a →
    exec (.rReset c) a = .next b →
    ∃ (d : State) (rs : List Response), execAll l b = .next d ∧ d.rd = a.rd ∧
      a.responses = s.responses ++ rs ∧ d.responses = b.responses ++ rs

/-- R32: no reader command reads or writes the writer, no writer command the reader: put any other unit in its place and
the outcome is the same, with that unit as it was put. Hence a reader command and a writer command commute: same state,
same results. -/
def Obligations.UnitsShareNothingAndCommute : Prop :=
  (∀ (s : State) (i : Instr) (wr : Writer), isWriter i = false →
    exec i { s with wr := wr } = onNext (fun t => { t with wr := wr }) (exec i s)) ∧
  (∀ (s : State) (i : Instr) (rd : Reader), isWriter i = true →
    exec i { s with rd := rd } = onNext (fun t => { t with rd := rd }) (exec i s)) ∧
  ∀ (s a b : State) (r w : Instr), isWriter r = false → isWriter w = true → exec r s = .next a → exec w a = .next b →
    ∃ (a' b' : State) (x y : Response), exec w s = .next a' ∧ exec r a' = .next b' ∧
      b' = { b with responses := s.responses ++ [y, x] } ∧ b.responses = s.responses ++ [x, y] ∧
      a.responses = s.responses ++ [x] ∧ a'.responses = s.responses ++ [y]

/-- R148: fields read in sequence, signed or not, and written with the same widths reproduce the stream bit for bit over
the written range and nothing outside it; over whole buffers, byte for byte. -/
def Obligations.RoundTripReproducesTheStream : Prop :=
  ∀ (s : State) (c : Ctx) (l : List Transfer) (B : Nat → Byte), Inv s → (∀ x ∈ l, x.ok) →
    (s.ctx c).pos.toNat + totalBits l ≤ 8 * s.rd.len.toNat →
    s.wr.cur.pos.toNat + totalBits l ≤ 8 * s.wr.len.toNat →
    Holds s.rd.buf B s.rd.len.toNat (s.ctx c).pos.toNat (totalBits l) →
    ∃ t, transferAll c l s = .next t ∧
      (∀ j < totalBits l,
        hostBit t (s.wr.cur.pos.toNat + j) = sbitOf B s.rd.len.toNat ((s.ctx c).pos.toNat + j)) ∧
      (∀ k, k < s.wr.cur.pos.toNat ∨ s.wr.cur.pos.toNat + totalBits l ≤ k → hostBit t k = hostBit s k) ∧
      (t.ctx c).err = (s.ctx c).err ∧ t.wr.cur.err = s.wr.cur.err ∧
      (t.ctx c).pos.toNat = (s.ctx c).pos.toNat + totalBits l ∧
      t.wr.cur.pos.toNat = s.wr.cur.pos.toNat + totalBits l ∧
      ((s.ctx c).pos = 0 → s.wr.cur.pos = 0 → totalBits l = 8 * s.rd.len.toNat → totalBits l = 8 * s.wr.len.toNat →
        ∀ a < s.rd.len.toNat, t.hostReadWbuf a = B a)

/-- R149: a signed value in range, passed as its 64-bit pattern, is read back by R.INTn; the field stored is the value
modulo `2^w`, in range or not; and the RES of an R.INTn holds the field in its low bits, so that it can be written back
as it is. -/
def Obligations.SignedValuesRoundTrip : Prop :=
  (∀ (s t u : State) (c : Ctx) (w : Nat) (z : Int) (n m : Size), 1 ≤ w → w ≤ n.bits → w ≤ m.bits →
    -(2 ^ (w - 1)) ≤ z → z < 2 ^ (w - 1) → s.wr.cur.pos.toNat + w ≤ 8 * s.wr.len.toNat →
    s.wr.cur.pos.toNat + w < 2 ^ 64 →
    exec (putOf n w (BitVec.ofInt 64 z)) s = .next t →
    (u.ctx c).pos = s.wr.cur.pos → s.wr.cur.pos.toNat + w ≤ 8 * u.rd.len.toNat →
    Holds u.rd.buf t.hostReadWbuf u.rd.len.toNat s.wr.cur.pos.toNat w →
    exec (intOf m c w) u = .next (afterConsume u c w (BitVec.ofInt 64 z))) ∧
  (∀ (w : Nat) (z : Int) (n : Size), 1 ≤ w → w ≤ n.bits → ∃ f : Nat, (f : Int) = z % 2 ^ w ∧
    Puts (putOf n w (BitVec.ofInt 64 z)) w f) ∧
  (∀ w r : Nat, 1 ≤ w → w ≤ 64 → r < 2 ^ w → (BitVec.ofInt 64 (signedOf r w)).toNat % 2 ^ w = r)

/-- R135: reading back with the helper of the same name at the same position returns the value. -/
def Obligations.HelperPutThenReadReturnsValue : Prop :=
  ∀ (s t u : State) (c : Ctx) (v : Word) (w : Nat) (put get : Instr),
    (w, put, get) ∈ [(8, .wPutByte v, .rByte c), (16, .wPutLe16 v, .rLe16 c), (16, .wPutBe16 v, .rBe16 c),
      (32, .wPutLe32 v, .rLe32 c), (32, .wPutBe32 v, .rBe32 c), (64, .wPutLe64 v, .rLe64 c),
      (64, .wPutBe64 v, .rBe64 c)] →
    s.wr.cur.pos.toNat + w ≤ 8 * s.wr.len.toNat → exec put s = .next t →
    (u.ctx c).pos = s.wr.cur.pos → s.wr.cur.pos.toNat + w ≤ 8 * u.rd.len.toNat →
    Holds u.rd.buf t.hostReadWbuf u.rd.len.toNat s.wr.cur.pos.toNat w →
    exec get u = .next (afterConsume u c w (BitVec.ofNat 64 (v.toNat % 2 ^ w)))
end

