-- ==== Sys2Proof/Laws/Memory.lean ====
section
/-! SUPPORT. The laws of a buffer memory: what a read sees after a write, that the canonical form is kept, and that equal
contents are equal data. -/

namespace Sys2Proof.Machine

open Sys2Proof

/-- Every address of a canonical memory's tail lies above its head. -/
theorem Memory.wf_cons {k : Nat} {v : Byte} {m : Memory} :
    Memory.wf ((k, v) :: m) ↔ (∀ x ∈ m, k < x.1) ∧ m.wf := List.pairwise_cons

@[simp] theorem Memory.read_nil (a : Nat) : Memory.read [] a = none := rfl

theorem Memory.read_cons (k : Nat) (v : Byte) (m : Memory) (a : Nat) :
    Memory.read ((k, v) :: m) a = if k = a then some v else m.read a := rfl

/-- A byte that a memory lists, the memory lists under its address. -/
theorem Memory.mem_of_read {m : Memory} {a : Nat} {b : Byte} (h : m.read a = some b) : (a, b) ∈ m := by
  induction m with
  | nil => simp at h
  | cons x m ih =>
    obtain ⟨k, v⟩ := x
    rw [Memory.read_cons] at h
    split at h
    · simp_all
    · exact List.mem_cons_of_mem _ (ih h)

/-- Below every listed address nothing is listed. -/
theorem Memory.read_below {m : Memory} {a : Nat} (h : ∀ x ∈ m, a < x.1) : m.read a = none := by
  cases hr : m.read a with
  | none => rfl
  | some b => exact absurd (h _ (Memory.mem_of_read hr)) (Nat.lt_irrefl _)

@[simp] theorem Memory.read_write_same (m : Memory) (a : Nat) (b : Byte) : (m.write a b).read a = some b := by
  induction m with
  | nil => simp [Memory.write, Memory.read]
  | cons x m ih =>
    obtain ⟨k, v⟩ := x
    unfold Memory.write
    split
    · simp [Memory.read]
    · split
      · simp [Memory.read]
      · rename_i h; simp [Memory.read_cons, ih, Ne.symm h]

theorem Memory.read_write_ne {m : Memory} {a k : Nat} (b : Byte) (h : k ≠ a) : (m.write a b).read k = m.read k := by
  induction m with
  | nil => simp [Memory.write, Memory.read, h.symm]
  | cons x m ih =>
    obtain ⟨j, v⟩ := x
    unfold Memory.write
    split
    · simp [Memory.read, h.symm]
    · split
      · rename_i h1 h2; subst h2; simp [Memory.read, h.symm]
      · simp [Memory.read, ih]

/-- The addresses a memory lists after a write. -/
theorem Memory.mem_write {m : Memory} {a : Nat} {b : Byte} {x : Host.Cell} (h : x ∈ m.write a b) :
    x = (a, b) ∨ x ∈ m := by
  induction m with
  | nil => simpa [Memory.write] using h
  | cons y m ih =>
    obtain ⟨k, v⟩ := y
    unfold Memory.write at h
    split at h
    · simpa using h
    · split at h
      · simp only [List.mem_cons] at h ⊢; tauto
      · simp only [List.mem_cons] at h ⊢
        rcases h with h | h
        · exact .inr (.inl h)
        · rcases ih h with h | h
          · exact .inl h
          · exact .inr (.inr h)

/-- A write keeps the canonical form. -/
theorem Memory.write_wf {m : Memory} (a : Nat) (b : Byte) (h : m.wf) : (m.write a b).wf := by
  induction m with
  | nil => simp [Memory.write, Memory.wf]
  | cons x m ih =>
    obtain ⟨k, v⟩ := x
    rw [Memory.wf_cons] at h
    unfold Memory.write
    split
    · rename_i hlt
      rw [Memory.wf_cons, Memory.wf_cons]
      refine ⟨fun x hx => ?_, h⟩
      rcases List.mem_cons.1 hx with rfl | hx
      · exact hlt
      · exact lt_trans hlt (h.1 x hx)
    · split
      · rename_i he; subst he; exact Memory.wf_cons.2 h
      · rename_i h1 h2
        refine Memory.wf_cons.2 ⟨fun x hx => ?_, ih h.2⟩
        rcases Memory.mem_write hx with rfl | hx
        · show k < a; omega
        · exact h.1 x hx

/-- A write inside a capacity keeps every listed byte inside it. -/
theorem Memory.write_within {m : Memory} {cap a : Nat} (b : Byte) (ha : a < cap) (h : ∀ x ∈ m, x.1 < cap) :
    ∀ x ∈ m.write a b, x.1 < cap := fun x hx => by
  rcases Memory.mem_write hx with rfl | hx
  · exact ha
  · exact h x hx

/-- In canonical form, equal contents are equal data. -/
theorem Memory.ext_read {m n : Memory} (hm : m.wf) (hn : n.wf) (h : ∀ a, m.read a = n.read a) : m = n := by
  induction m generalizing n with
  | nil =>
    cases n with
    | nil => rfl
    | cons y n => have := h y.1; simp [Memory.read] at this
  | cons x m ih =>
    obtain ⟨k, v⟩ := x
    cases n with
    | nil => have := h k; simp [Memory.read] at this
    | cons y n =>
      obtain ⟨j, u⟩ := y
      rw [Memory.wf_cons] at hm hn
      have hk := h k
      have hj := h j
      simp only [Memory.read_cons, ite_true] at hk hj
      have hkj : k = j := by
        by_contra hne
        rw [if_neg (fun e => hne e.symm)] at hk
        rw [if_neg hne] at hj
        have h1 := hn.1 _ (Memory.mem_of_read hk.symm)
        have h2 := hm.1 _ (Memory.mem_of_read hj)
        simp only at h1 h2
        omega
      subst hkj
      rw [if_pos rfl] at hk
      have htail : m = n := ih hm.2 hn.2 fun a => by
        have ha := h a
        simp only [Memory.read_cons] at ha
        by_cases hka : k = a
        · subst hka
          rw [Memory.read_below hm.1, Memory.read_below hn.1]
        · simpa [hka] using ha
      simp_all

end Sys2Proof.Machine
end

