-- ==== Sys2Proof/Laws/Bits.lean ====
section
/-! SUPPORT. The laws of stream bits: the unpacker (00_scope.md R7, R8), the packer (R10), and the byte and sign
permutations (R9, R11). -/

namespace Sys2Proof.Machine

open Sys2Proof

/-! ## Bits of a byte -/

theorem bitOfByte_lt (b : Byte) (i : Nat) : bitOfByte b i < 2 := Nat.mod_lt _ (by decide)

theorem bitOfByte_eq (b : Byte) (i : Nat) : bitOfByte b i = (b.getLsbD (7 - i)).toNat := by
  unfold bitOfByte BitVec.getLsbD
  rw [Nat.testBit_eq_decide_div_mod_eq]
  rcases Nat.mod_two_eq_zero_or_one (b.toNat / 2 ^ (7 - i)) with h | h <;> simp [h]

/-- Two bytes with the same eight stream bits are the same byte. -/
theorem byte_ext {x y : Byte} (h : ∀ i < 8, bitOfByte x i = bitOfByte y i) : x = y := by
  apply BitVec.eq_of_getLsbD_eq
  intro i hi
  have := h (7 - i) (by omega)
  rw [bitOfByte_eq, bitOfByte_eq, show 7 - (7 - i) = i by omega] at this
  revert this; cases x.getLsbD i <;> cases y.getLsbD i <;> simp

/-- R10's byte formula sets the one bit it names. -/
theorem bitOfByte_setbit (x : Byte) {i k b : Nat} (hi : i < 8) (hk : k < 8) (hb : b < 2) :
    bitOfByte ((x &&& ~~~((0x80 : Byte) >>> i)) ||| (BitVec.ofNat 8 b <<< (7 - i))) k =
      if k = i then b else bitOfByte x k := by
  rw [bitOfByte_eq, bitOfByte_eq]
  interval_cases i <;> interval_cases k <;> interval_cases b <;>
    simp

/-! ## The unpacker -/

/-- Inside the stream, a bit of a byte that holds a value. -/
theorem sbit_inside {m : Memory} {len i : Nat} {b : Byte} (hi : i < 8 * len) (hb : m.read (i / 8) = some b) :
    sbit m len i = some (bitOfByte b (i % 8)) := by
  simp [sbit, hi, hb]

/-- At or past the end the stream reads as zero, whatever the memory holds. -/
theorem sbit_past (m : Memory) {len i : Nat} (hi : 8 * len ≤ i) : sbit m len i = some 0 := by
  simp [sbit, Nat.not_lt.2 hi]

theorem sbit_lt {m : Memory} {len i b : Nat} (h : sbit m len i = some b) : b < 2 := by
  unfold sbit at h
  split at h
  · obtain ⟨v, -, rfl⟩ := Option.map_eq_some_iff.1 h
    exact bitOfByte_lt _ _
  · simp only [Option.some.injEq] at h; omega

/-- A stream bit depends on the one byte it lies in. -/
theorem sbit_congr {m n : Memory} {len i : Nat} (h : i < 8 * len → m.read (i / 8) = n.read (i / 8)) :
    sbit m len i = sbit n len i := by
  unfold sbit
  split
  · rename_i hi; rw [h hi]
  · rfl

@[simp] theorem extract_zero (m : Memory) (len p : Nat) : extract m len p 0 = some 0 := rfl

/-- One more bit at the low end. -/
theorem extract_succ_eq_some {m : Memory} {len p w r : Nat} :
    extract m len p (w + 1) = some r ↔
      ∃ high low, extract m len p w = some high ∧ sbit m len (p + w) = some low ∧ r = 2 * high + low := by
  simp only [extract, Option.bind_eq_bind, Option.bind_eq_some_iff, Option.pure_def, Option.some.injEq]
  constructor
  · rintro ⟨h, hh, l, hl, rfl⟩; exact ⟨h, l, hh, hl, rfl⟩
  · rintro ⟨h, l, hh, hl, rfl⟩; exact ⟨h, hh, l, hl, rfl⟩

/-- R8: `0 <= extract(B, L, p, w) < 2^w`. -/
theorem extract_lt {m : Memory} {len p w r : Nat} (h : extract m len p w = some r) : r < 2 ^ w := by
  induction w generalizing r with
  | zero =>
    obtain rfl : 0 = r := by simpa using h
    simp
  | succ w ih =>
    obtain ⟨high, low, hh, hl, rfl⟩ := extract_succ_eq_some.1 h
    have := ih hh
    have := sbit_lt hl
    rw [pow_succ]; omega

/-- A field has a value when each of its bits has one; then the value's bits are the field's. -/
theorem extract_of_bits {m : Memory} {len p w : Nat} {g : Nat → Nat}
    (h : ∀ j < w, sbit m len (p + j) = some (g j)) :
    extract m len p w = some (∑ j ∈ Finset.range w, g j * 2 ^ (w - 1 - j)) := by
  induction w with
  | zero => simp
  | succ w ih =>
    refine extract_succ_eq_some.2 ⟨_, _, ih fun j hj => h j (by omega), h w (by omega), ?_⟩
    rw [Finset.sum_range_succ, Finset.mul_sum]
    congr 1
    · refine Finset.sum_congr rfl fun j hj => ?_
      have : j < w := Finset.mem_range.1 hj
      rw [show w + 1 - 1 - j = (w - 1 - j) + 1 by omega, pow_succ]; ring
    · simp

/-- The bits of a field's value, counted from the most significant, are the stream bits of the field. -/
theorem extract_bit {m : Memory} {len p w r : Nat} (h : extract m len p w = some r) {j : Nat} (hj : j < w) :
    sbit m len (p + j) = some (r / 2 ^ (w - 1 - j) % 2) := by
  induction w generalizing r with
  | zero => omega
  | succ w ih =>
    obtain ⟨high, low, hh, hl, rfl⟩ := extract_succ_eq_some.1 h
    have hlow := sbit_lt hl
    rcases Nat.lt_succ_iff_lt_or_eq.1 hj with hlt | rfl
    · rw [ih hh hlt, show w + 1 - 1 - j = (w - 1 - j) + 1 by omega, pow_succ', ← Nat.div_div_eq_div_mul,
        show (2 * high + low) / 2 = high by omega]
    · rw [hl]; simp; omega

/-- A field that has a value: each of its bits has one. -/
theorem extract_isSome {m : Memory} {len p w : Nat} :
    (extract m len p w).isSome ↔ ∀ j < w, (sbit m len (p + j)).isSome := by
  constructor
  · intro h j hj
    obtain ⟨r, hr⟩ := Option.isSome_iff_exists.1 h
    rw [extract_bit hr hj]; rfl
  · intro h
    rw [extract_of_bits (g := fun j => (sbit m len (p + j)).getD 0) fun j hj => by
      obtain ⟨b, hb⟩ := Option.isSome_iff_exists.1 (h j hj); simp [hb]]
    rfl

/-- A bit has a value when it lies past the end or its byte has one. -/
theorem sbit_isSome {m : Memory} {len i : Nat} :
    (sbit m len i).isSome ↔ (i < 8 * len → (m.read (i / 8)).isSome) := by
  unfold sbit
  split <;> simp_all

/-- A field depends on the bytes it touches. -/
theorem extract_congr {m n : Memory} {len p w : Nat}
    (h : ∀ j < w, p + j < 8 * len → m.read ((p + j) / 8) = n.read ((p + j) / 8)) :
    extract m len p w = extract n len p w := by
  induction w with
  | zero => rfl
  | succ w ih =>
    simp only [extract]
    rw [ih fun j hj => h j (by omega), sbit_congr (h w (by omega))]

/-- A field at or past the end is 0. -/
theorem extract_past (m : Memory) {len p : Nat} (w : Nat) (hp : 8 * len ≤ p) : extract m len p w = some 0 := by
  rw [extract_of_bits (g := fun _ => 0) fun j _ => sbit_past m (by omega)]
  simp

/-- R8: `extract(p, a+b) = extract(p, a) * 2^b + extract(p+a, b)`. -/
theorem extract_add {m : Memory} {len p a b x y : Nat} (hx : extract m len p a = some x)
    (hy : extract m len (p + a) b = some y) : extract m len p (a + b) = some (x * 2 ^ b + y) := by
  induction b generalizing y with
  | zero =>
    obtain rfl : 0 = y := by simpa using hy
    simpa using hx
  | succ b ih =>
    obtain ⟨high, low, hh, hl, rfl⟩ := extract_succ_eq_some.1 hy
    refine extract_succ_eq_some.2 ⟨_, low, ih hh, by rw [← hl, Nat.add_assoc]; rfl, ?_⟩
    rw [pow_succ]; ring

/-- And back: a field that has a value splits at every point. -/
theorem extract_split {m : Memory} {len p a b r : Nat} (h : extract m len p (a + b) = some r) :
    ∃ x y, extract m len p a = some x ∧ extract m len (p + a) b = some y ∧ r = x * 2 ^ b + y := by
  have hs := extract_isSome.1 (Option.isSome_iff_exists.2 ⟨r, h⟩)
  obtain ⟨x, hx⟩ := Option.isSome_iff_exists.1
    (extract_isSome.2 fun j (hj : j < a) => hs j (by omega))
  obtain ⟨y, hy⟩ := Option.isSome_iff_exists.1
    (extract_isSome.2 fun j (hj : j < b) => by rw [Nat.add_assoc]; exact hs (a + j) (by omega))
  exact ⟨x, y, hx, hy, Option.some.inj (h.symm.trans (extract_add hx hy))⟩

/-! ## The packer -/

/-- Stream bit `i` of WBUF, as the host would see it. -/
def wbit (epoch : Nat) (m : Memory) (i : Nat) : Nat := bitOfByte (wbyte epoch m (i / 8)) (i % 8)

theorem wbit_lt (epoch : Nat) (m : Memory) (i : Nat) : wbit epoch m i < 2 := bitOfByte_lt _ _

theorem wbyte_of_read {epoch : Nat} {m : Memory} {a : Nat} {b : Byte} (h : m.read a = some b) :
    wbyte epoch m a = b := by simp [wbyte, h]

theorem wbyte_congr {epoch : Nat} {m n : Memory} {a : Nat} (h : m.read a = n.read a) :
    wbyte epoch m a = wbyte epoch n a := by simp [wbyte, h]

@[simp] theorem wbyte_write_same (epoch : Nat) (m : Memory) (a : Nat) (b : Byte) :
    wbyte epoch (m.write a b) a = b := wbyte_of_read (by simp)

theorem wbyte_write_ne (epoch : Nat) (m : Memory) {a k : Nat} (b : Byte) (h : k ≠ a) :
    wbyte epoch (m.write a b) k = wbyte epoch m k := wbyte_congr (Memory.read_write_ne b h)

/-- Two memories with the same stream bits hold the same bytes. -/
theorem wbyte_eq_of_wbit {e f : Nat} {m n : Memory} {a : Nat}
    (h : ∀ i, i / 8 = a → wbit e m i = wbit f n i) : wbyte e m a = wbyte f n a := by
  refine byte_ext fun i hi => ?_
  have := h (8 * a + i) (by omega)
  simpa [wbit, show (8 * a + i) / 8 = a by omega, show (8 * a + i) % 8 = i by omega] using this

/-- `setbit` sets the one bit it names and keeps every other. -/
theorem wbit_setbit (epoch : Nat) (m : Memory) (i k : Nat) {b : Nat} (hb : b < 2) :
    wbit epoch (setbit epoch m i b) k = if k = i then b else wbit epoch m k := by
  unfold wbit setbit
  by_cases hbyte : k / 8 = i / 8
  · rw [hbyte, wbyte_write_same, bitOfByte_setbit _ (Nat.mod_lt _ (by decide)) (Nat.mod_lt _ (by decide)) hb]
    have : k % 8 = i % 8 ↔ k = i := by omega
    simp [this]
  · rw [wbyte_write_ne _ _ _ hbyte, if_neg fun e => hbyte (by rw [e])]

/-- R10: after `insert(B, p, w, f)` the stream bits of the field are those of `f`, the first the most significant, and
every other stream bit is unchanged. -/
theorem wbit_insert (epoch : Nat) (m : Memory) (p w f i : Nat) :
    wbit epoch (insert epoch m p w f) i =
      if p ≤ i ∧ i < p + w then f / 2 ^ (w - 1 - (i - p)) % 2 else wbit epoch m i := by
  induction w generalizing f with
  | zero => simp [insert, show ¬(p ≤ i ∧ i < p) by omega]
  | succ w ih =>
    rw [insert, wbit_setbit _ _ _ _ (Nat.mod_lt _ (by decide)), ih]
    by_cases hi : i = p + w
    · subst hi; simp
    · rw [if_neg hi]
      by_cases hin : p ≤ i ∧ i < p + w
      · rw [if_pos hin, if_pos ⟨hin.1, by omega⟩, show w + 1 - 1 - (i - p) = (w - 1 - (i - p)) + 1 by omega,
          pow_succ', ← Nat.div_div_eq_div_mul]
      · rw [if_neg hin, if_neg (by omega)]

/-- A byte no bit of the field lies in is left as it was, listed or not. -/
theorem read_insert_outside (epoch : Nat) (m : Memory) (p w f a : Nat) (h : ∀ i, p ≤ i → i < p + w → i / 8 ≠ a) :
    (insert epoch m p w f).read a = m.read a := by
  induction w generalizing f with
  | zero => rfl
  | succ w ih =>
    rw [insert, setbit, Memory.read_write_ne _ (h (p + w) (by omega) (by omega)).symm,
      ih _ fun i h1 h2 => h i h1 (by omega)]

/-- A byte some bit of the field lies in holds a value afterwards. -/
theorem read_insert_inside (epoch : Nat) (m : Memory) (p w f a : Nat) (h : ∃ i, p ≤ i ∧ i < p + w ∧ i / 8 = a) :
    ((insert epoch m p w f).read a).isSome := by
  induction w generalizing f with
  | zero => obtain ⟨i, h1, h2, -⟩ := h; omega
  | succ w ih =>
    rw [insert, setbit]
    by_cases ha : a = (p + w) / 8
    · subst ha; simp
    · rw [Memory.read_write_ne _ ha]
      obtain ⟨i, h1, h2, h3⟩ := h
      refine ih _ ⟨i, h1, ?_, h3⟩
      by_contra hge
      exact ha (by rw [← h3, show i = p + w by omega])

/-- An insertion keeps the canonical form. -/
theorem insert_wf (epoch : Nat) {m : Memory} (p w f : Nat) (h : m.wf) : (insert epoch m p w f).wf := by
  induction w generalizing f with
  | zero => exact h
  | succ w ih => exact Memory.write_wf _ _ (ih _)

/-- An insertion inside a capacity keeps every listed byte inside it. -/
theorem insert_within (epoch : Nat) {m : Memory} {p w cap : Nat} (f : Nat) (hp : p + w ≤ 8 * cap)
    (h : ∀ x ∈ m, x.1 < cap) : ∀ x ∈ insert epoch m p w f, x.1 < cap := by
  induction w generalizing f with
  | zero => exact h
  | succ w ih => exact Memory.write_within _ (by omega) (ih _ (by omega))

/-! ## Byte reversal (R11) -/

theorem bswap_lt (k v : Nat) : bswap k v < 256 ^ k := by
  induction k generalizing v with
  | zero => simp [bswap]
  | succ k ih =>
    have := ih (v / 256)
    have hm : v % 256 ≤ 255 := by omega
    calc bswap (k + 1) v = v % 256 * 256 ^ k + bswap k (v / 256) := rfl
      _ < 255 * 256 ^ k + 256 ^ k := by have := Nat.mul_le_mul_right (256 ^ k) hm; omega
      _ = 256 ^ (k + 1) := by rw [pow_succ]; ring

/-- Byte `i` of a byte-reversed value, counted from the least significant, is byte `k-1-i` of the value. -/
theorem bswap_byte {k i : Nat} (v : Nat) (hi : i < k) :
    bswap k v / 256 ^ i % 256 = v / 256 ^ (k - 1 - i) % 256 := by
  induction k generalizing v i with
  | zero => omega
  | succ k ih =>
    rcases Nat.lt_succ_iff_lt_or_eq.1 hi with hlt | rfl
    · have hsplit : v % 256 * 256 ^ k = v % 256 * 256 ^ (k - 1 - i) * 256 * 256 ^ i := by
        rw [Nat.mul_assoc, Nat.mul_assoc, ← pow_succ', ← pow_add]; congr 2; omega
      rw [bswap, hsplit, Nat.add_comm, Nat.add_mul_div_right _ _ (by positivity),
        show v % 256 * 256 ^ (k - 1 - i) * 256 = 256 * (v % 256 * 256 ^ (k - 1 - i)) by ring,
        Nat.add_mul_mod_self_left, ih _ hlt, Nat.div_div_eq_div_mul, ← pow_succ',
        show k - 1 - i + 1 = k + 1 - 1 - i by omega]
    · rw [bswap, Nat.add_comm, Nat.add_mul_div_right _ _ (by positivity),
        Nat.div_eq_of_lt (bswap_lt _ _), Nat.zero_add, Nat.mod_mod]
      simp

/-- A value of `k` bytes is determined by its bytes. -/
theorem eq_of_bytes {k x y : Nat} (hx : x < 256 ^ k) (hy : y < 256 ^ k)
    (h : ∀ i < k, x / 256 ^ i % 256 = y / 256 ^ i % 256) : x = y := by
  induction k generalizing x y with
  | zero => simp at hx hy; omega
  | succ k ih =>
    have h0 := h 0 (by omega)
    simp only [pow_zero, Nat.div_one] at h0
    have hq : x / 256 = y / 256 := ih
      (by rw [pow_succ'] at hx; exact Nat.div_lt_of_lt_mul hx)
      (by rw [pow_succ'] at hy; exact Nat.div_lt_of_lt_mul hy)
      fun i hi => by
        have := h (i + 1) (by omega)
        simpa [pow_succ', ← Nat.div_div_eq_div_mul] using this
    omega

/-- Reversing the bytes twice gives the value back. -/
theorem bswap_bswap {k v : Nat} (hv : v < 256 ^ k) : bswap k (bswap k v) = v :=
  eq_of_bytes (bswap_lt _ _) hv fun i hi => by
    rw [bswap_byte _ hi, bswap_byte _ (by omega), show k - 1 - (k - 1 - i) = i by omega]

/-! ## Sign (R9) and low bits (R66) -/

theorem lowBits_lt (w : Nat) (v : Word) : lowBits w v < 2 ^ w := Nat.mod_lt _ (by positivity)

/-- R9: the field's top bit clear. -/
theorem tosigned_of_lt {r w : Nat} (h : r < 2 ^ (w - 1)) : tosigned r w = r := by
  simp [tosigned, Nat.not_le.2 h]

/-- R9: the field's top bit set. -/
theorem tosigned_of_ge {r w : Nat} (h : 2 ^ (w - 1) ≤ r) : tosigned r w = (r : Int) - (2 ^ w : Nat) := by
  simp [tosigned, h]

/-- A signed result's low `w` bits are the field. -/
theorem lowBits_signedRes {w r : Nat} (hw : w ≤ 64) (hr : r < 2 ^ w) : lowBits w (signedRes w r) = r := by
  have hd : ((2 : Nat) ^ w) ∣ 2 ^ 64 := pow_dvd_pow 2 hw
  have hz : ((lowBits w (signedRes w r) : Nat) : Int) = (tosigned r w) % ((2 ^ w : Nat) : Int) := by
    unfold lowBits signedRes
    rw [BitVec.toNat_ofInt]
    push_cast
    rw [Int.toNat_of_nonneg (Int.emod_nonneg _ (by positivity))]
    exact Int.emod_emod_of_dvd _ (by exact_mod_cast hd)
  have hmod : (tosigned r w) % ((2 ^ w : Nat) : Int) = r := by
    unfold tosigned
    split
    · rw [Int.sub_emod_right]; exact Int.emod_eq_of_lt (by positivity) (by exact_mod_cast hr)
    · exact Int.emod_eq_of_lt (by positivity) (by exact_mod_cast hr)
  exact_mod_cast hz.trans hmod

/-- An unsigned result's low `w` bits are the field. -/
theorem lowBits_unsignedRes {w r : Nat} (hw : w ≤ 64) (hr : r < 2 ^ w) : lowBits w (unsignedRes r) = r := by
  unfold lowBits unsignedRes
  have : r < 2 ^ 64 := lt_of_lt_of_le hr (Nat.pow_le_pow_right (by decide) hw)
  rw [BitVec.toNat_ofNat, Nat.mod_eq_of_lt this, Nat.mod_eq_of_lt hr]

end Sys2Proof.Machine
end

