-- ==== Sys2Proof/Laws/Encoding.lean ====
section
/-! SUPPORT. The laws of the command word's fields (30_encoding.md R61): what the fields of a packed word are, that a word is
its fields, and what each mask of R63 and R64 says about them. -/

namespace Sys2Proof

/-! ## The fields of a packed word -/

theorem packCw_toNat {u op c w : Nat} (hu : u < 2) (ho : op < 32) (hc : c < 4) (hw : w < 128) :
    (packCw u op c w).toNat = u * 2 ^ 15 + op * 2 ^ 10 + c * 2 ^ 8 + w := by
  unfold packCw
  rw [BitVec.toNat_ofNat, Nat.mod_eq_of_lt]
  omega

theorem cwUnit_pack {u op c w : Nat} (hu : u < 2) (ho : op < 32) (hc : c < 4) (hw : w < 128) :
    cwUnit (packCw u op c w) = u := by
  unfold cwUnit; rw [packCw_toNat hu ho hc hw]; omega

theorem cwOp_pack {u op c w : Nat} (hu : u < 2) (ho : op < 32) (hc : c < 4) (hw : w < 128) :
    cwOp (packCw u op c w) = op := by
  unfold cwOp; rw [packCw_toNat hu ho hc hw]; omega

theorem cwCtx_pack {u op c w : Nat} (hu : u < 2) (ho : op < 32) (hc : c < 4) (hw : w < 128) :
    cwCtx (packCw u op c w) = ⟨c, hc⟩ := by
  apply Fin.ext
  simp only [cwCtx, packCw_toNat hu ho hc hw]
  omega

theorem cwZ_pack {u op c w : Nat} (hu : u < 2) (ho : op < 32) (hc : c < 4) (hw : w < 128) :
    cwZ (packCw u op c w) = 0 := by
  unfold cwZ; rw [packCw_toNat hu ho hc hw]; omega

theorem cwWidth_pack {u op c w : Nat} (hu : u < 2) (ho : op < 32) (hc : c < 4) (hw : w < 128) :
    cwWidth (packCw u op c w) = w := by
  unfold cwWidth; rw [packCw_toNat hu ho hc hw]; omega

theorem cwDst_pack {u op c d : Nat} (hu : u < 2) (ho : op < 32) (hc : c < 4) (hd : d < 4) :
    cwDst (packCw u op c d) = ⟨d, hd⟩ := by
  apply Fin.ext
  simp only [cwDst, packCw_toNat hu ho hc (by omega : d < 128)]
  omega

/-! ## A word is its fields -/

theorem cwUnit_lt (cw : CmdWord) : cwUnit cw < 2 := by
  have := cw.isLt
  unfold cwUnit; omega

theorem cwOp_lt (cw : CmdWord) : cwOp cw < 32 := Nat.mod_lt _ (by decide)

/-- A command word with `Z = 0` is the packing of its fields. -/
theorem packCw_fields {cw : CmdWord} (hz : cwZ cw = 0) :
    packCw (cwUnit cw) (cwOp cw) (cwCtx cw).val (cwWidth cw) = cw := by
  have hlt := cw.isLt
  apply BitVec.eq_of_toNat_eq
  rw [packCw_toNat (cwUnit_lt cw) (cwOp_lt cw) (cwCtx cw).isLt (show cwWidth cw < 128 from Nat.mod_lt _ (by decide))]
  unfold cwZ at hz
  simp only [cwUnit, cwOp, cwCtx, cwWidth]
  omega

/-! ## The masks of R63 and R64 -/

/-- A mask that covers the six high bits fixes U and OP, and the rest of it acts on the ten low bits. -/
theorem and_mask_eq {cw : CmdWord} {m op l : Nat} (hm : m < 1024) (hl : l < 1024) (ho : op < 64) :
    cw &&& BitVec.ofNat 16 (63 * 1024 + m) = BitVec.ofNat 16 (op * 1024 + l) ↔
      cwUnit cw * 32 + cwOp cw = op ∧ cw.toNat % 2 ^ 10 &&& m = l := by
  have hcw := cw.isLt
  have hsplit : ∀ x y : Nat, x = y ↔ x / 2 ^ 10 = y / 2 ^ 10 ∧ x % 2 ^ 10 = y % 2 ^ 10 := by
    intro x y; constructor
    · rintro rfl; simp
    · rintro ⟨h1, h2⟩; omega
  have h63 : cw.toNat / 2 ^ 10 &&& 63 = cw.toNat / 2 ^ 10 := by
    have := Nat.and_two_pow_sub_one_eq_mod (cw.toNat / 2 ^ 10) 6
    norm_num at this ⊢
    omega
  have key : (cw &&& BitVec.ofNat 16 (63 * 1024 + m) = BitVec.ofNat 16 (op * 1024 + l)) ↔
      cw.toNat / 2 ^ 10 = op ∧ (cw.toNat % 2 ^ 10) &&& m = l := by
    rw [← BitVec.toNat_inj, BitVec.toNat_and, BitVec.toNat_ofNat, BitVec.toNat_ofNat,
      Nat.mod_eq_of_lt (show 63 * 1024 + m < 2 ^ 16 by omega), Nat.mod_eq_of_lt (show op * 1024 + l < 2 ^ 16 by omega),
      hsplit, Nat.and_div_two_pow, Nat.and_mod_two_pow,
      show (63 * 1024 + m) / 2 ^ 10 = 63 by omega, show (63 * 1024 + m) % 2 ^ 10 = m by omega,
      show (op * 1024 + l) / 2 ^ 10 = op by omega, show (op * 1024 + l) % 2 ^ 10 = l by omega, h63]
  have hop : cwUnit cw * 32 + cwOp cw = cw.toNat / 2 ^ 10 := by
    unfold cwUnit cwOp; omega
  rw [key, hop]

/-- What the ten low bits say of CTX, Z and WIDTH. -/
theorem low_fields (cw : CmdWord) :
    cw.toNat % 2 ^ 10 = (cwCtx cw).val * 256 + cwZ cw * 128 + cwWidth cw ∧ (cwCtx cw).val < 4 ∧ cwZ cw < 2 ∧
      cwWidth cw < 128 := by
  have := cw.isLt
  simp only [cwCtx, cwZ, cwWidth]
  omega

theorem low_mask_FF : ∀ v < 1024, v &&& 0xFF = 0 ↔ v % 256 = 0 := by
  intro v _
  have := Nat.and_two_pow_sub_one_eq_mod v 8
  norm_num at this
  rw [this]

theorem low_mask_FC : ∀ v < 1024, v &&& 0xFC = 0 ↔ v % 256 / 4 = 0 := by decide +kernel

theorem low_mask_80 : ∀ v < 1024, v &&& 0x80 = 0 ↔ v / 128 % 2 = 0 := by decide +kernel

theorem low_mask_3FF : ∀ v < 1024, v &&& 0x3FF = 0 ↔ v = 0 := by decide +kernel

theorem low_mask_380 : ∀ v < 1024, v &&& 0x380 = 0 ↔ v / 128 = 0 := by decide +kernel

/-! Each mask of the table, and the fields it fixes; `v` is the match column of a row of the operation `op`, U included. -/

theorem mask_FCFF (cw : CmdWord) {op : Nat} {v : CmdWord} (ho : op < 64) (hv : v = BitVec.ofNat 16 (op * 1024 + 0)) :
    cw &&& 0xFCFF = v ↔ cwUnit cw * 32 + cwOp cw = op ∧ cwZ cw = 0 ∧ cwWidth cw = 0 := by
  have hm : (0xFCFF : CmdWord) = BitVec.ofNat 16 (63 * 1024 + 0xFF) := by decide
  rw [hv, hm, and_mask_eq (by omega) (by omega) ho, low_mask_FF (cw.toNat % 2 ^ 10) (Nat.mod_lt _ (by decide))]
  have := low_fields cw
  omega

theorem mask_FCFC (cw : CmdWord) {op : Nat} {v : CmdWord} (ho : op < 64) (hv : v = BitVec.ofNat 16 (op * 1024 + 0)) :
    cw &&& 0xFCFC = v ↔ cwUnit cw * 32 + cwOp cw = op ∧ cwZ cw = 0 ∧ cwWidth cw / 4 = 0 := by
  have hm : (0xFCFC : CmdWord) = BitVec.ofNat 16 (63 * 1024 + 0xFC) := by decide
  rw [hv, hm, and_mask_eq (by omega) (by omega) ho, low_mask_FC (cw.toNat % 2 ^ 10) (Nat.mod_lt _ (by decide))]
  have := low_fields cw
  omega

theorem mask_FC80 (cw : CmdWord) {op : Nat} {v : CmdWord} (ho : op < 64) (hv : v = BitVec.ofNat 16 (op * 1024 + 0)) :
    cw &&& 0xFC80 = v ↔ cwUnit cw * 32 + cwOp cw = op ∧ cwZ cw = 0 := by
  have hm : (0xFC80 : CmdWord) = BitVec.ofNat 16 (63 * 1024 + 0x80) := by decide
  rw [hv, hm, and_mask_eq (by omega) (by omega) ho, low_mask_80 (cw.toNat % 2 ^ 10) (Nat.mod_lt _ (by decide))]
  have := low_fields cw
  omega

theorem mask_FFFF (cw : CmdWord) {op : Nat} {v : CmdWord} (ho : op < 64) (hv : v = BitVec.ofNat 16 (op * 1024 + 0)) :
    cw &&& 0xFFFF = v ↔ cwUnit cw * 32 + cwOp cw = op ∧ (cwCtx cw).val = 0 ∧ cwZ cw = 0 ∧ cwWidth cw = 0 := by
  have hm : (0xFFFF : CmdWord) = BitVec.ofNat 16 (63 * 1024 + 0x3FF) := by decide
  rw [hv, hm, and_mask_eq (by omega) (by omega) ho, low_mask_3FF (cw.toNat % 2 ^ 10) (Nat.mod_lt _ (by decide))]
  have := low_fields cw
  omega

theorem mask_FF80 (cw : CmdWord) {op : Nat} {v : CmdWord} (ho : op < 64) (hv : v = BitVec.ofNat 16 (op * 1024 + 0)) :
    cw &&& 0xFF80 = v ↔ cwUnit cw * 32 + cwOp cw = op ∧ (cwCtx cw).val = 0 ∧ cwZ cw = 0 := by
  have hm : (0xFF80 : CmdWord) = BitVec.ofNat 16 (63 * 1024 + 0x380) := by decide
  rw [hv, hm, and_mask_eq (by omega) (by omega) ho, low_mask_380 (cw.toNat % 2 ^ 10) (Nat.mod_lt _ (by decide))]
  have := low_fields cw
  omega

end Sys2Proof
end

