-- ==== Sys2Proof/Laws/State.lean ====
section
/-! SUPPORT. One lemma per field of the state and per update of it, so that no later proof unfolds a record update. -/

namespace Sys2Proof.Machine

open Sys2Proof

variable (s : State)

/-! ## Cursors -/

@[simp] theorem Cursor.zero_pos : Cursor.zero.pos = 0 := rfl
@[simp] theorem Cursor.zero_err : Cursor.zero.err = .none := rfl
@[simp] theorem Cursor.rewind_eq (cur : Cursor) : cur.rewind = Cursor.zero := rfl
@[simp] theorem Cursor.flagOverflow_pos (cur : Cursor) : cur.flagOverflow.pos = cur.pos := rfl
@[simp] theorem Cursor.flagOverflow_err (cur : Cursor) : cur.flagOverflow.err = .overflow := rfl

@[simp] theorem Cursor.advance_pos (cur : Cursor) (len w : Nat) :
    (cur.advance len w).pos = BitVec.ofNat 64 (cur.pos.toNat + w) := rfl

theorem Cursor.advance_err (cur : Cursor) (len w : Nat) :
    (cur.advance len w).err = if 8 * len < cur.pos.toNat + w then .overflow else cur.err := by
  unfold Cursor.advance overflows
  by_cases h : 8 * len < cur.pos.toNat + w <;> simp [h]

/-- The whole of an advance, as R80 and R130 write it. -/
theorem Cursor.advance_eq (cur : Cursor) (len w : Nat) :
    cur.advance len w =
      { pos := BitVec.ofNat 64 (cur.pos.toNat + w),
        err := if 8 * len < cur.pos.toNat + w then .overflow else cur.err } := by
  rw [← Cursor.advance_err]; rfl

theorem Cursor.ext_fields {x y : Cursor} (hp : x.pos = y.pos) (he : x.err = y.err) : x = y := by
  cases x; cases y; simp_all

/-! ## Reading a context after an update -/

@[simp] theorem ctx_setCtx_same (c : Ctx) (cur : Cursor) : (s.setCtx c cur).ctx c = cur := by
  simp [State.ctx, State.setCtx]

theorem ctx_setCtx_ne {c d : Ctx} (cur : Cursor) (h : d ≠ c) : (s.setCtx c cur).ctx d = s.ctx d := by
  have hv : c.val ≠ d.val := fun e => h (Fin.ext e.symm)
  simp [State.ctx, State.setCtx, hv]

theorem ctx_setCtx (c d : Ctx) (cur : Cursor) : (s.setCtx c cur).ctx d = if d = c then cur else s.ctx d := by
  by_cases h : d = c
  · subst h; simp
  · simp [h, ctx_setCtx_ne]

@[simp] theorem ctx_setWriterCursor (c : Ctx) (cur : Cursor) : (s.setWriterCursor cur).ctx c = s.ctx c := rfl
@[simp] theorem ctx_setWbuf (c : Ctx) (m : Memory) : (s.setWbuf m).ctx c = s.ctx c := rfl
@[simp] theorem ctx_setRbuf (c : Ctx) (m : Memory) : (s.setRbuf m).ctx c = s.ctx c := rfl
@[simp] theorem ctx_bindReader (c : Ctx) (n : Word) : (s.bindReader n).ctx c = Cursor.zero := by
  simp [State.ctx, State.bindReader]
@[simp] theorem ctx_bindWriter (c : Ctx) (n : Word) : (s.bindWriter n).ctx c = s.ctx c := rfl
@[simp] theorem ctx_respond (c : Ctx) (r a : Word) : (s.respond r a).ctx c = s.ctx c := rfl
@[simp] theorem ctx_hardwareReset (c : Ctx) : (hardwareReset s).ctx c = Cursor.zero := by
  simp [State.ctx, hardwareReset, Reader.reset]
@[simp] theorem ctx_withPending (c : Ctx) (l : List HostMove) : ({ s with pending := l } : State).ctx c = s.ctx c := rfl

/-- Writing a context's own value back changes nothing (42_reader_cursor.md R111, `src = dst`). -/
@[simp] theorem setCtx_ctx_self (c : Ctx) : s.setCtx c (s.ctx c) = s := by
  simp [State.ctx, State.setCtx]

/-- Two states with the same fields and the same four contexts are the same. -/
theorem State.ext_ctx {x y : State} (hcfg : x.cfg = y.cfg) (hlen : x.rd.len = y.rd.len) (hbuf : x.rd.buf = y.rd.buf)
    (hctx : ∀ c, x.ctx c = y.ctx c) (hwr : x.wr = y.wr) (hep : x.epoch = y.epoch) (hpend : x.pending = y.pending)
    (hresp : x.responses = y.responses) : x = y := by
  obtain ⟨xc, ⟨xl, xb, xv⟩, xw, xe, xp, xr⟩ := x
  obtain ⟨yc, ⟨yl, yb, yv⟩, yw, ye, yp, yr⟩ := y
  have hv : xv = yv := Vector.ext fun i hi => by
    have := hctx ⟨i, hi⟩
    simpa [State.ctx] using this
  simp_all

/-- Of two writes of one context the second stays. -/
@[simp] theorem setCtx_setCtx (c : Ctx) (a b : Cursor) : (s.setCtx c a).setCtx c b = s.setCtx c b := by
  refine State.ext_ctx rfl rfl rfl (fun d => ?_) rfl rfl rfl rfl
  rw [ctx_setCtx, ctx_setCtx, ctx_setCtx]; split <;> rfl

/-! ## setCtx -/

@[simp] theorem setCtx_cfg (c : Ctx) (cur : Cursor) : (s.setCtx c cur).cfg = s.cfg := rfl
@[simp] theorem setCtx_rlen (c : Ctx) (cur : Cursor) : (s.setCtx c cur).rd.len = s.rd.len := rfl
@[simp] theorem setCtx_rbuf (c : Ctx) (cur : Cursor) : (s.setCtx c cur).rd.buf = s.rd.buf := rfl
@[simp] theorem setCtx_wr (c : Ctx) (cur : Cursor) : (s.setCtx c cur).wr = s.wr := rfl
@[simp] theorem setCtx_epoch (c : Ctx) (cur : Cursor) : (s.setCtx c cur).epoch = s.epoch := rfl
@[simp] theorem setCtx_pending (c : Ctx) (cur : Cursor) : (s.setCtx c cur).pending = s.pending := rfl
@[simp] theorem setCtx_responses (c : Ctx) (cur : Cursor) : (s.setCtx c cur).responses = s.responses := rfl

/-! ## setWriterCursor -/

@[simp] theorem setWriterCursor_cfg (cur : Cursor) : (s.setWriterCursor cur).cfg = s.cfg := rfl
@[simp] theorem setWriterCursor_rd (cur : Cursor) : (s.setWriterCursor cur).rd = s.rd := rfl
@[simp] theorem setWriterCursor_wlen (cur : Cursor) : (s.setWriterCursor cur).wr.len = s.wr.len := rfl
@[simp] theorem setWriterCursor_wbuf (cur : Cursor) : (s.setWriterCursor cur).wr.buf = s.wr.buf := rfl
@[simp] theorem setWriterCursor_cur (cur : Cursor) : (s.setWriterCursor cur).wr.cur = cur := rfl
@[simp] theorem setWriterCursor_epoch (cur : Cursor) : (s.setWriterCursor cur).epoch = s.epoch := rfl
@[simp] theorem setWriterCursor_pending (cur : Cursor) : (s.setWriterCursor cur).pending = s.pending := rfl
@[simp] theorem setWriterCursor_responses (cur : Cursor) : (s.setWriterCursor cur).responses = s.responses := rfl

/-! ## setWbuf -/

@[simp] theorem setWbuf_cfg (m : Memory) : (s.setWbuf m).cfg = s.cfg := rfl
@[simp] theorem setWbuf_rd (m : Memory) : (s.setWbuf m).rd = s.rd := rfl
@[simp] theorem setWbuf_wlen (m : Memory) : (s.setWbuf m).wr.len = s.wr.len := rfl
@[simp] theorem setWbuf_wbuf (m : Memory) : (s.setWbuf m).wr.buf = m := rfl
@[simp] theorem setWbuf_cur (m : Memory) : (s.setWbuf m).wr.cur = s.wr.cur := rfl
@[simp] theorem setWbuf_epoch (m : Memory) : (s.setWbuf m).epoch = s.epoch := rfl
@[simp] theorem setWbuf_pending (m : Memory) : (s.setWbuf m).pending = s.pending := rfl
@[simp] theorem setWbuf_responses (m : Memory) : (s.setWbuf m).responses = s.responses := rfl

/-! ## setRbuf -/

@[simp] theorem setRbuf_cfg (m : Memory) : (s.setRbuf m).cfg = s.cfg := rfl
@[simp] theorem setRbuf_rlen (m : Memory) : (s.setRbuf m).rd.len = s.rd.len := rfl
@[simp] theorem setRbuf_rbuf (m : Memory) : (s.setRbuf m).rd.buf = m := rfl
@[simp] theorem setRbuf_wr (m : Memory) : (s.setRbuf m).wr = s.wr := rfl
@[simp] theorem setRbuf_epoch (m : Memory) : (s.setRbuf m).epoch = s.epoch := rfl
@[simp] theorem setRbuf_pending (m : Memory) : (s.setRbuf m).pending = s.pending := rfl
@[simp] theorem setRbuf_responses (m : Memory) : (s.setRbuf m).responses = s.responses := rfl

/-! ## bindReader -/

@[simp] theorem bindReader_cfg (n : Word) : (s.bindReader n).cfg = s.cfg := rfl
@[simp] theorem bindReader_rlen (n : Word) : (s.bindReader n).rd.len = n := rfl
@[simp] theorem bindReader_rbuf (n : Word) : (s.bindReader n).rd.buf = s.rd.buf := rfl
@[simp] theorem bindReader_wr (n : Word) : (s.bindReader n).wr = s.wr := rfl
@[simp] theorem bindReader_epoch (n : Word) : (s.bindReader n).epoch = s.epoch := rfl
@[simp] theorem bindReader_pending (n : Word) : (s.bindReader n).pending = s.pending := rfl
@[simp] theorem bindReader_responses (n : Word) : (s.bindReader n).responses = s.responses := rfl

/-! ## bindWriter -/

@[simp] theorem bindWriter_cfg (n : Word) : (s.bindWriter n).cfg = s.cfg := rfl
@[simp] theorem bindWriter_rd (n : Word) : (s.bindWriter n).rd = s.rd := rfl
@[simp] theorem bindWriter_wlen (n : Word) : (s.bindWriter n).wr.len = n := rfl
@[simp] theorem bindWriter_wbuf (n : Word) : (s.bindWriter n).wr.buf = s.wr.buf := rfl
@[simp] theorem bindWriter_cur (n : Word) : (s.bindWriter n).wr.cur = Cursor.zero := rfl
@[simp] theorem bindWriter_epoch (n : Word) : (s.bindWriter n).epoch = s.epoch := rfl
@[simp] theorem bindWriter_pending (n : Word) : (s.bindWriter n).pending = s.pending := rfl
@[simp] theorem bindWriter_responses (n : Word) : (s.bindWriter n).responses = s.responses := rfl

/-! ## respond -/

@[simp] theorem respond_cfg (r a : Word) : (s.respond r a).cfg = s.cfg := rfl
@[simp] theorem respond_rd (r a : Word) : (s.respond r a).rd = s.rd := rfl
@[simp] theorem respond_wr (r a : Word) : (s.respond r a).wr = s.wr := rfl
@[simp] theorem respond_epoch (r a : Word) : (s.respond r a).epoch = s.epoch := rfl
@[simp] theorem respond_pending (r a : Word) : (s.respond r a).pending = s.pending := rfl
@[simp] theorem respond_responses (r a : Word) :
    (s.respond r a).responses = s.responses ++ [{ res := r, aux := a }] := rfl

/-! ## hardwareReset -/

@[simp] theorem hardwareReset_cfg : (hardwareReset s).cfg = s.cfg := rfl
@[simp] theorem hardwareReset_rd : (hardwareReset s).rd = Reader.reset := rfl
@[simp] theorem hardwareReset_wr : (hardwareReset s).wr = Writer.reset := rfl
@[simp] theorem hardwareReset_epoch : (hardwareReset s).epoch = s.epoch + 1 := rfl
@[simp] theorem hardwareReset_pending : (hardwareReset s).pending = s.pending := rfl
@[simp] theorem hardwareReset_responses : (hardwareReset s).responses = s.responses := rfl

end Sys2Proof.Machine
end

