-- ==== Sys2Proof/Laws/Ops.lean ====
section
/-! SUPPORT. Everything each shared operation can do, said once: later proofs cite these and unfold nothing. -/

namespace Sys2Proof.Machine

open Sys2Proof

/-! ## Constraints -/

theorem requireWidth_ok {w n : Nat} (h : 1 ≤ w ∧ w ≤ n) (r : Result) : requireWidth w n r = r := if_pos h

theorem requireWidth_bad {w n : Nat} (h : ¬(1 ≤ w ∧ w ≤ n)) (r : Result) :
    requireWidth w n r = .refused .widthOutOfRange := if_neg h

theorem requireWidth_next {w n : Nat} {r : Result} {t : State} (h : requireWidth w n r = .next t) :
    (1 ≤ w ∧ w ≤ n) ∧ r = .next t := by
  unfold requireWidth at h
  split at h
  · exact ⟨‹_›, h⟩
  · cases h

theorem requireCapacity_ok {len : Word} {cap : Nat} (h : len.toNat ≤ cap) (r : Result) :
    requireCapacity len cap r = r := if_pos h

theorem requireCapacity_bad {len : Word} {cap : Nat} (h : ¬len.toNat ≤ cap) (r : Result) :
    requireCapacity len cap r = .refused .lengthAboveCapacity := if_neg h

theorem requireCapacity_next {len : Word} {cap : Nat} {r : Result} {t : State}
    (h : requireCapacity len cap r = .next t) : len.toNat ≤ cap ∧ r = .next t := by
  unfold requireCapacity at h
  split at h
  · exact ⟨‹_›, h⟩
  · cases h

theorem requirePosition_ok {pos : Word} {n : Nat} (h : pos.toNat + n < posLimit) (r : Result) :
    requirePosition pos n r = r := if_pos h

theorem requirePosition_bad {pos : Word} {n : Nat} (h : ¬pos.toNat + n < posLimit) (r : Result) :
    requirePosition pos n r = .refused .positionOutOfRange := if_neg h

theorem requirePosition_next {pos : Word} {n : Nat} {r : Result} {t : State}
    (h : requirePosition pos n r = .next t) : pos.toNat + n < posLimit ∧ r = .next t := by
  unfold requirePosition at h
  split at h
  · exact ⟨‹_›, h⟩
  · cases h

/-! ## Advancing a cursor -/

/-- Within the position bound, the new position is the old one plus the whole width. -/
theorem Cursor.advance_pos_toNat {cur : Cursor} {w : Nat} (len : Nat) (h : cur.pos.toNat + w < posLimit) :
    (cur.advance len w).pos.toNat = cur.pos.toNat + w := by
  rw [Cursor.advance_pos, BitVec.toNat_ofNat, Nat.mod_eq_of_lt h]

/-- When the flag is set afterwards: it was, or the field overflows (60_exceptions.md R160). -/
theorem Cursor.advance_err_iff (cur : Cursor) (len w : Nat) :
    (cur.advance len w).err = .overflow ↔ cur.err = .overflow ∨ 8 * len < cur.pos.toNat + w := by
  rw [Cursor.advance_err]; split <;> simp_all

/-- Advancing keeps the law of 10_state.md R29. -/
theorem Cursor.advance_lawful {cur : Cursor} {len w : Nat} (h : cur.pos.toNat + w < posLimit)
    (hl : cur.err = .overflow ↔ 8 * len < cur.pos.toNat) :
    (cur.advance len w).err = .overflow ↔ 8 * len < (cur.advance len w).pos.toNat := by
  rw [Cursor.advance_pos_toNat len h, Cursor.advance_err]
  split
  · simp [*]
  · rw [hl]; omega

/-- Two advances are one (40_reader_bitfield.md R90 (b)). -/
theorem Cursor.advance_advance {cur : Cursor} {len a b : Nat} (h : cur.pos.toNat + a < posLimit) :
    (cur.advance len a).advance len b = cur.advance len (a + b) := by
  have hp := Cursor.advance_pos_toNat len h
  rw [Cursor.advance_eq (cur.advance len a), Cursor.advance_eq cur len (a + b), hp, Cursor.advance_err,
    Nat.add_assoc]
  congr 1
  by_cases h1 : 8 * len < cur.pos.toNat + (a + b)
  · rw [if_pos h1, if_pos h1]
  · rw [if_neg h1, if_neg h1, if_neg (by omega)]

/-! ## consume -/

/-- The one way `consume` answers a next state. -/
theorem consume_next {c : Ctx} {w : Nat} {form : Nat → Word} {s t : State} (h : consume c w form s = .next t) :
    ∃ raw, (s.ctx c).pos.toNat + w < posLimit ∧
      extract s.rd.buf s.rd.len.toNat (s.ctx c).pos.toNat w = some raw ∧
      t = (s.setCtx c ((s.ctx c).advance s.rd.len.toNat w)).respond (form raw) 0 := by
  obtain ⟨hp, h⟩ := requirePosition_next h
  split at h
  · cases h
  · rename_i raw hraw
    cases h
    exact ⟨raw, hp, hraw, rfl⟩

/-- When `consume` completes, and what it leaves. -/
theorem consume_ok {c : Ctx} {w raw : Nat} {form : Nat → Word} {s : State}
    (hp : (s.ctx c).pos.toNat + w < posLimit)
    (hraw : extract s.rd.buf s.rd.len.toNat (s.ctx c).pos.toNat w = some raw) :
    consume c w form s = .next ((s.setCtx c ((s.ctx c).advance s.rd.len.toNat w)).respond (form raw) 0) := by
  unfold consume
  rw [requirePosition_ok hp, hraw]

/-- When `consume` is refused. -/
theorem consume_refused {c : Ctx} {w : Nat} {form : Nat → Word} {s : State}
    (hp : ¬(s.ctx c).pos.toNat + w < posLimit) : consume c w form s = .refused .positionOutOfRange :=
  requirePosition_bad hp _

/-- When `consume` faults. -/
theorem consume_fault {c : Ctx} {w : Nat} {form : Nat → Word} {s : State}
    (hp : (s.ctx c).pos.toNat + w < posLimit)
    (hraw : extract s.rd.buf s.rd.len.toNat (s.ctx c).pos.toNat w = none) :
    consume c w form s = .fault .rbufByteNeverWritten := by
  unfold consume
  rw [requirePosition_ok hp, hraw]

/-! ## produce -/

/-- The one way `produce` answers a next state. -/
theorem produce_next {w f : Nat} {s t : State} (h : produce w f s = .next t) :
    s.wr.cur.pos.toNat + w < posLimit ∧
      t = ((s.setWbuf (produceBuf s w f)).setWriterCursor (s.wr.cur.advance s.wr.len.toNat w)).respond 0 0 := by
  obtain ⟨hp, h⟩ := requirePosition_next h
  cases h
  exact ⟨hp, rfl⟩

/-- When `produce` completes. -/
theorem produce_ok {w f : Nat} {s : State} (hp : s.wr.cur.pos.toNat + w < posLimit) :
    produce w f s = .next
      (((s.setWbuf (produceBuf s w f)).setWriterCursor (s.wr.cur.advance s.wr.len.toNat w)).respond 0 0) :=
  requirePosition_ok hp _

theorem produce_refused {w f : Nat} {s : State} (hp : ¬s.wr.cur.pos.toNat + w < posLimit) :
    produce w f s = .refused .positionOutOfRange := requirePosition_bad hp _

/-- A field that fits is stored whole. -/
theorem produceBuf_fits {s : State} {w : Nat} (f : Nat) (h : s.wr.cur.pos.toNat + w ≤ 8 * s.wr.len.toNat) :
    produceBuf s w f = insert s.epoch s.wr.buf s.wr.cur.pos.toNat w f := if_pos h

/-- Of a field that does not fit, nothing is stored by default. -/
theorem produceBuf_overflow {s : State} {w : Nat} (f : Nat) (h : 8 * s.wr.len.toNat < s.wr.cur.pos.toNat + w)
    (hk : s.cfg.wrPartial = false) : produceBuf s w f = s.wr.buf := by
  simp only [produceBuf]
  rw [if_neg (by omega), if_neg (by simp [hk])]

/-- Of a field that lies wholly past the end, nothing is stored under either setting. -/
theorem produceBuf_past {s : State} {w : Nat} (f : Nat) (hw : 8 * s.wr.len.toNat < s.wr.cur.pos.toNat + w)
    (h : 8 * s.wr.len.toNat ≤ s.wr.cur.pos.toNat) : produceBuf s w f = s.wr.buf := by
  simp only [produceBuf]
  rw [if_neg (by omega), if_neg (by omega)]

/-- Under `WR_PARTIAL` a field that crosses the end leaves its first bits. -/
theorem produceBuf_partial {s : State} {w : Nat} (f : Nat) (hk : s.cfg.wrPartial = true)
    (h : 8 * s.wr.len.toNat < s.wr.cur.pos.toNat + w) (hp : s.wr.cur.pos.toNat < 8 * s.wr.len.toNat) :
    produceBuf s w f = insert s.epoch s.wr.buf s.wr.cur.pos.toNat (8 * s.wr.len.toNat - s.wr.cur.pos.toNat)
      (f / 2 ^ (w - (8 * s.wr.len.toNat - s.wr.cur.pos.toNat))) := by
  simp only [produceBuf]
  rw [if_neg (by omega), if_pos ⟨hk, hp⟩]

/-- Whatever is stored is an insertion of bits that lie inside the field and inside the stream. -/
theorem produceBuf_cases (s : State) (w f : Nat) :
    produceBuf s w f = s.wr.buf ∨
      ∃ r g, r ≤ w ∧ s.wr.cur.pos.toNat + r ≤ 8 * s.wr.len.toNat ∧
        produceBuf s w f = insert s.epoch s.wr.buf s.wr.cur.pos.toNat r g := by
  by_cases h : s.wr.cur.pos.toNat + w ≤ 8 * s.wr.len.toNat
  · exact .inr ⟨w, f, le_rfl, h, produceBuf_fits f h⟩
  · by_cases hk : s.cfg.wrPartial = true ∧ s.wr.cur.pos.toNat < 8 * s.wr.len.toNat
    · exact .inr ⟨_, _, by omega, by omega, produceBuf_partial f hk.1 (by omega) hk.2⟩
    · refine .inl ?_
      simp only [produceBuf]
      rw [if_neg h, if_neg hk]

/-- Every store keeps the canonical form. -/
theorem produceBuf_wf {s : State} (w f : Nat) (h : s.wr.buf.wf) : (produceBuf s w f).wf := by
  rcases produceBuf_cases s w f with he | ⟨r, g, -, -, he⟩ <;> rw [he]
  · exact h
  · exact insert_wf _ _ _ _ h

/-- Every store stays inside the stream, and so inside the memory. -/
theorem produceBuf_within {s : State} {cap : Nat} (w f : Nat) (hlen : s.wr.len.toNat ≤ cap)
    (h : ∀ x ∈ s.wr.buf, x.1 < cap) : ∀ x ∈ produceBuf s w f, x.1 < cap := by
  rcases produceBuf_cases s w f with he | ⟨r, g, -, hr, he⟩ <;> rw [he]
  · exact h
  · exact insert_within _ _ (by omega) h

/-- No byte at or past the bound length is ever stored to (10_state.md R28). -/
theorem read_produceBuf_beyond (s : State) (w f : Nat) {a : Nat} (ha : s.wr.len.toNat ≤ a) :
    (produceBuf s w f).read a = s.wr.buf.read a := by
  rcases produceBuf_cases s w f with he | ⟨r, g, -, hr, he⟩ <;> rw [he]
  exact read_insert_outside _ _ _ _ _ _ fun i h1 h2 => by omega

/-- No byte the field does not touch is stored to. -/
theorem read_produceBuf_outside (s : State) (w f : Nat) {a : Nat}
    (ha : ∀ i, s.wr.cur.pos.toNat ≤ i → i < s.wr.cur.pos.toNat + w → i / 8 ≠ a) :
    (produceBuf s w f).read a = s.wr.buf.read a := by
  rcases produceBuf_cases s w f with he | ⟨r, g, hr, -, he⟩ <;> rw [he]
  exact read_insert_outside _ _ _ _ _ _ fun i h1 h2 => ha i h1 (by omega)

/-- No stream bit outside the field changes (R130, D13). -/
theorem wbit_produceBuf_outside (s : State) (w f : Nat) {i : Nat}
    (hi : i < s.wr.cur.pos.toNat ∨ s.wr.cur.pos.toNat + w ≤ i) :
    wbit s.epoch (produceBuf s w f) i = wbit s.epoch s.wr.buf i := by
  rcases produceBuf_cases s w f with he | ⟨r, g, hr, -, he⟩ <;> rw [he]
  rw [wbit_insert, if_neg (by omega)]

/-! ## The host's writes -/

/-- The three outcomes of a host write. -/
theorem hostWrite_next {cap len a : Nat} {t u : State} (h : hostWrite cap len a t = .next u) :
    a < cap ∧ len ≤ a ∧ u = t := by
  unfold hostWrite at h
  split at h
  · cases h
  · split at h
    · cases h
    · cases h; exact ⟨by omega, by omega, rfl⟩

theorem hostWrite_ok {cap len a : Nat} (t : State) (hc : a < cap) (hl : len ≤ a) :
    hostWrite cap len a t = .next t := by
  unfold hostWrite
  rw [if_neg (by omega), if_neg (by omega)]

end Sys2Proof.Machine
end

