-- ==== Sys2Proof/Laws/Step.lean ====
section
/-! SUPPORT. What a step can be: the inversion lemmas of step and takeMove. -/

namespace Sys2Proof.Machine

open Sys2Proof

theorem step_idle {s : State} (h : s.pending = []) : step s = .next s := by
  unfold step; rw [h]

theorem step_move {s : State} {m : HostMove} {rest : List HostMove} (h : s.pending = m :: rest) :
    step s = takeMove m { s with pending := rest } := by
  unfold step; rw [h]

theorem takeMove_command {cw : CmdWord} {opd : Word} {i : Instr} (s : State) (h : decode cw opd = .ok i) :
    takeMove (.command cw opd) s = exec i s := by
  simp [takeMove, h]

theorem takeMove_illegal {cw : CmdWord} {opd : Word} {why : IllegalEncoding} (s : State)
    (h : decode cw opd = .error why) : takeMove (.command cw opd) s = .refused (.illegalEncoding why) := by
  simp [takeMove, h]

/-- Every way a move of the host gives a next state. -/
theorem takeMove_next {m : HostMove} {s t : State} (h : takeMove m s = .next t) :
    (∃ cw opd i, m = .command cw opd ∧ decode cw opd = .ok i ∧ exec i s = .next t) ∨
    (∃ a b, m = .writeRbuf a b ∧ a < s.cfg.rcap ∧ s.rd.len.toNat ≤ a ∧ t = s.setRbuf (s.rd.buf.write a b)) ∨
    (∃ a b, m = .writeWbuf a b ∧ a < s.cfg.wcap ∧ s.wr.len.toNat ≤ a ∧ t = s.setWbuf (s.wr.buf.write a b)) ∨
    (m = .hardwareReset ∧ t = hardwareReset s) := by
  cases m with
  | command cw opd =>
    refine .inl ⟨cw, opd, ?_⟩
    cases hd : decode cw opd with
    | ok i => rw [takeMove_command s hd] at h; exact ⟨i, rfl, rfl, h⟩
    | error why => rw [takeMove_illegal s hd] at h; cases h
  | writeRbuf a b => exact .inr (.inl ⟨a, b, rfl, hostWrite_next h⟩)
  | writeWbuf a b => exact .inr (.inr (.inl ⟨a, b, rfl, hostWrite_next h⟩))
  | hardwareReset => cases h; exact .inr (.inr (.inr ⟨rfl, rfl⟩))

/-- Every way a step gives a next state. -/
theorem step_next {s t : State} (h : step s = .next t) :
    (s.pending = [] ∧ t = s) ∨
      ∃ m rest, s.pending = m :: rest ∧ takeMove m { s with pending := rest } = .next t := by
  cases hp : s.pending with
  | nil => rw [step_idle hp] at h; cases h; exact .inl ⟨rfl, rfl⟩
  | cons m rest => rw [step_move hp] at h; exact .inr ⟨m, rest, rfl, h⟩

end Sys2Proof.Machine
end

