-- ==== Sys2Proof/Laws/Exec.lean ====
section
/-! SUPPORT. Which shared operation each command is: one lemma for the commands that consume and return stream data, one for
those that produce, and one inversion of exec over all 40. -/

namespace Sys2Proof.Machine

open Sys2Proof

theorem widthOk_iff {w n : Nat} : widthOk w n = true ↔ 1 ≤ w ∧ w ≤ n := by
  simp [widthOk]

/-- The context, the width and the form of RES of a command that returns stream data. -/
def readShape : Instr → Option (Ctx × Nat × (Nat → Word))
  | .rBit c => some (c, 1, unsignedRes)
  | .rUint8 c w => some (c, w, unsignedRes)
  | .rUint16 c w => some (c, w, unsignedRes)
  | .rUint32 c w => some (c, w, unsignedRes)
  | .rUint64 c w => some (c, w, unsignedRes)
  | .rInt8 c w => some (c, w, signedRes w)
  | .rInt16 c w => some (c, w, signedRes w)
  | .rInt32 c w => some (c, w, signedRes w)
  | .rInt64 c w => some (c, w, signedRes w)
  | .rByte c => some (c, 8, unsignedRes)
  | .rLe16 c => some (c, 16, littleEndianRes 2)
  | .rBe16 c => some (c, 16, unsignedRes)
  | .rLe32 c => some (c, 32, littleEndianRes 4)
  | .rBe32 c => some (c, 32, unsignedRes)
  | .rLe64 c => some (c, 64, littleEndianRes 8)
  | .rBe64 c => some (c, 64, unsignedRes)
  | _ => none

/-- The width and the field of a producing command. -/
def putShape : Instr → Option (Nat × Nat)
  | .wPutU8 w v => some (w, lowBits w v)
  | .wPutU16 w v => some (w, lowBits w v)
  | .wPutU32 w v => some (w, lowBits w v)
  | .wPutU64 w v => some (w, lowBits w v)
  | .wPutByte v => some (8, lowBits 8 v)
  | .wPutLe16 v => some (16, littleEndianField 2 v)
  | .wPutBe16 v => some (16, bigEndianField 2 v)
  | .wPutLe32 v => some (32, littleEndianField 4 v)
  | .wPutBe32 v => some (32, bigEndianField 4 v)
  | .wPutLe64 v => some (64, littleEndianField 8 v)
  | .wPutBe64 v => some (64, bigEndianField 8 v)
  | _ => none

/-- A command that returns stream data is a consumption, where its width is legal. -/
theorem exec_read {i : Instr} {c : Ctx} {w : Nat} {form : Nat → Word} (h : readShape i = some (c, w, form))
    (hw : i.wf = true) (s : State) : exec i s = consume c w form s := by
  cases i <;> simp only [readShape, Option.some.injEq, Prod.mk.injEq, reduceCtorEq] at h <;>
    obtain ⟨rfl, rfl, rfl⟩ := h <;> first | rfl | exact requireWidth_ok (widthOk_iff.1 hw) _

/-- A producing command is a production, where its width is legal. -/
theorem exec_put {i : Instr} {w f : Nat} (h : putShape i = some (w, f)) (hw : i.wf = true) (s : State) :
    exec i s = produce w f s := by
  cases i <;> simp only [putShape, Option.some.injEq, Prod.mk.injEq, reduceCtorEq] at h <;>
    obtain ⟨rfl, rfl⟩ := h <;> first | rfl | exact requireWidth_ok (widthOk_iff.1 hw) _

/-- A width out of range is all that makes a command ill-formed, and it is refused. -/
theorem exec_ill_formed {i : Instr} (hw : i.wf = false) (s : State) : exec i s = .refused .widthOutOfRange := by
  cases i <;> simp only [Instr.wf, reduceCtorEq] at hw <;>
    exact requireWidth_bad (fun h => by rw [widthOk_iff.2 h] at hw; cases hw) _

/-- A command that completes is well-formed. -/
theorem wf_of_exec_next {i : Instr} {s t : State} (h : exec i s = .next t) : i.wf = true := by
  cases hw : i.wf with
  | true => rfl
  | false => rw [exec_ill_formed hw] at h; cases h

/-- A field never has width 0. -/
theorem width_pos {i : Instr} (hw : i.wf = true) :
    (∀ c w form, readShape i = some (c, w, form) → 1 ≤ w ∧ w ≤ 64) ∧
      ∀ w f, putShape i = some (w, f) → 1 ≤ w ∧ w ≤ 64 ∧ f < 2 ^ w := by
  refine ⟨fun c w form h => ?_, fun w f h => ?_⟩
  · cases i <;> simp only [readShape, Option.some.injEq, Prod.mk.injEq, reduceCtorEq] at h <;>
      obtain ⟨rfl, rfl, rfl⟩ := h <;> first | omega | (have := widthOk_iff.1 hw; omega)
  · cases i <;> simp only [putShape, Option.some.injEq, Prod.mk.injEq, reduceCtorEq] at h <;>
      obtain ⟨rfl, rfl⟩ := h <;> refine ⟨?_, ?_, ?_⟩ <;>
      first
      | exact lowBits_lt _ _
      | exact bswap_lt _ _
      | omega
      | (have := widthOk_iff.1 hw; omega)

/-- Everything a command that completes can have been. -/
theorem exec_next {i : Instr} {s t : State} (h : exec i s = .next t) :
    (∃ c w form, readShape i = some (c, w, form) ∧ consume c w form s = .next t) ∨
    (∃ c bits, i = .rSkip c bits ∧ (s.ctx c).pos.toNat + bits.toNat < posLimit ∧
      t = (s.setCtx c ((s.ctx c).advance s.rd.len.toNat bits.toNat)).respond 0 0) ∨
    (∃ src dst, i = .rPeek src dst ∧ t = (s.setCtx dst (s.ctx src)).respond 0 0) ∨
    (∃ c res aux, (i = .rAt c ∨ i = .rLeftBits c ∨ i = .rLeftBytes c ∨ i = .rError c) ∧ t = s.respond res aux ∧
      ((∀ d, i ≠ .rLeftBytes d) → aux = 0)) ∨
    (∃ c, i = .rReset c ∧ t = (s.setCtx c Cursor.zero).respond 0 0) ∨
    (∃ n, i = .rNew n ∧ n.toNat ≤ s.cfg.rcap ∧ t = (s.bindReader n).respond 0 0) ∨
    (∃ w f, putShape i = some (w, f) ∧ produce w f s = .next t) ∨
    (∃ res, (i = .wAt ∨ i = .wFlush ∨ i = .wError) ∧ t = s.respond res 0) ∨
    (i = .wReset ∧ t = (s.setWriterCursor Cursor.zero).respond 0 0) ∨
    (∃ n, i = .wNew n ∧ n.toNat ≤ s.cfg.wcap ∧ t = (s.bindWriter n).respond 0 0) := by
  have hw := wf_of_exec_next h
  cases hr : readShape i with
  | some x => obtain ⟨c, w, form⟩ := x; exact .inl ⟨c, w, form, rfl, exec_read hr hw s ▸ h⟩
  | none =>
    refine .inr ?_
    cases hp : putShape i with
    | some x =>
      obtain ⟨w, f⟩ := x
      exact .inr (.inr (.inr (.inr (.inr (.inl ⟨w, f, rfl, exec_put hp hw s ▸ h⟩)))))
    | none =>
      cases i <;> simp only [readShape, putShape, reduceCtorEq] at hr hp
      case rSkip c bits =>
        obtain ⟨hpos, h⟩ := requirePosition_next h
        cases h; exact .inl ⟨c, bits, rfl, hpos, rfl⟩
      case rPeek src dst => cases h; exact .inr (.inl ⟨src, dst, rfl, rfl⟩)
      case rAt c => cases h; exact .inr (.inr (.inl ⟨c, _, _, .inl rfl, rfl, fun _ => rfl⟩))
      case rLeftBits c => cases h; exact .inr (.inr (.inl ⟨c, _, _, .inr (.inl rfl), rfl, fun _ => rfl⟩))
      case rLeftBytes c =>
        cases h; exact .inr (.inr (.inl ⟨c, _, _, .inr (.inr (.inl rfl)), rfl, fun hn => absurd rfl (hn c)⟩))
      case rError c => cases h; exact .inr (.inr (.inl ⟨c, _, _, .inr (.inr (.inr rfl)), rfl, fun _ => rfl⟩))
      case rReset c => cases h; exact .inr (.inr (.inr (.inl ⟨c, rfl, rfl⟩)))
      case rNew n =>
        obtain ⟨hn, h⟩ := requireCapacity_next h
        cases h; exact .inr (.inr (.inr (.inr (.inl ⟨n, rfl, hn, rfl⟩))))
      case wAt => cases h; exact .inr (.inr (.inr (.inr (.inr (.inr (.inl ⟨_, .inl rfl, rfl⟩))))))
      case wFlush => cases h; exact .inr (.inr (.inr (.inr (.inr (.inr (.inl ⟨_, .inr (.inl rfl), rfl⟩))))))
      case wError => cases h; exact .inr (.inr (.inr (.inr (.inr (.inr (.inl ⟨_, .inr (.inr rfl), rfl⟩))))))
      case wReset => cases h; exact .inr (.inr (.inr (.inr (.inr (.inr (.inr (.inl ⟨rfl, rfl⟩)))))))
      case wNew n =>
        obtain ⟨hn, h⟩ := requireCapacity_next h
        cases h; exact .inr (.inr (.inr (.inr (.inr (.inr (.inr (.inr ⟨n, rfl, hn, rfl⟩)))))))

end Sys2Proof.Machine
end

