-- ==== Sys2Proof/Laws/PerInstr.lean ====
section
/-! SUPPORT. The family RowMatch: for every constructor, the word its encoding gives meets the match and mask columns of
its row (30_encoding.md R63, R64, R68). The columns stand here as the spec prints them, not as the encoder computes
them. -/

namespace Sys2Proof.Laws

open Sys2Proof

/-- The columns match and mask of the command's row in R63 and R64. -/
def row : Instr → CmdWord × CmdWord
  | .rBit _ => (0x0000, 0xFCFF)
  | .rSkip _ _ => (0x0400, 0xFCFF)
  | .rPeek _ _ => (0x0800, 0xFCFC)
  | .rAt _ => (0x0C00, 0xFCFF)
  | .rUint8 _ _ => (0x1000, 0xFC80)
  | .rUint16 _ _ => (0x1400, 0xFC80)
  | .rUint32 _ _ => (0x1800, 0xFC80)
  | .rUint64 _ _ => (0x1C00, 0xFC80)
  | .rInt8 _ _ => (0x2000, 0xFC80)
  | .rInt16 _ _ => (0x2400, 0xFC80)
  | .rInt32 _ _ => (0x2800, 0xFC80)
  | .rInt64 _ _ => (0x2C00, 0xFC80)
  | .rByte _ => (0x3000, 0xFCFF)
  | .rLe16 _ => (0x3400, 0xFCFF)
  | .rLe32 _ => (0x3800, 0xFCFF)
  | .rLe64 _ => (0x3C00, 0xFCFF)
  | .rBe16 _ => (0x4400, 0xFCFF)
  | .rBe32 _ => (0x4800, 0xFCFF)
  | .rBe64 _ => (0x4C00, 0xFCFF)
  | .rLeftBits _ => (0x5000, 0xFCFF)
  | .rLeftBytes _ => (0x5400, 0xFCFF)
  | .rReset _ => (0x5800, 0xFCFF)
  | .rError _ => (0x5C00, 0xFCFF)
  | .rNew _ => (0x6000, 0xFFFF)
  | .wAt => (0x8C00, 0xFFFF)
  | .wPutU8 _ _ => (0x9000, 0xFF80)
  | .wPutU16 _ _ => (0x9400, 0xFF80)
  | .wPutU32 _ _ => (0x9800, 0xFF80)
  | .wPutU64 _ _ => (0x9C00, 0xFF80)
  | .wPutByte _ => (0xB000, 0xFFFF)
  | .wPutLe16 _ => (0xB400, 0xFFFF)
  | .wPutLe32 _ => (0xB800, 0xFFFF)
  | .wPutLe64 _ => (0xBC00, 0xFFFF)
  | .wPutBe16 _ => (0xC400, 0xFFFF)
  | .wPutBe32 _ => (0xC800, 0xFFFF)
  | .wPutBe64 _ => (0xCC00, 0xFFFF)
  | .wFlush => (0xD400, 0xFFFF)
  | .wReset => (0xD800, 0xFFFF)
  | .wError => (0xDC00, 0xFFFF)
  | .wNew _ => (0xE000, 0xFFFF)

/-- The encoding of a well-formed command meets its row's match and mask. -/
def RowMatch.Statement (i : Instr) : Prop := i.wf = true → (encode i).1 &&& (row i).2 = (row i).1

namespace RowMatch

/-- What `widthOk` says. -/
theorem width_le {w n : Nat} (h : widthOk w n = true) : w ≤ n := by
  simp only [widthOk, Bool.and_eq_true, decide_eq_true_eq] at h
  exact h.2

theorem rBit (c : Ctx) : Statement (.rBit c) := fun _ =>
  (by decide : ∀ c : Fin 4, packCw 0 0x00 c.val 0 &&& 0xFCFF = 0x0000) c

theorem rSkip (c : Ctx) (bits : Word) : Statement (.rSkip c bits) := fun _ =>
  (by decide : ∀ c : Fin 4, packCw 0 0x01 c.val 0 &&& 0xFCFF = 0x0400) c

theorem rPeek (src dst : Ctx) : Statement (.rPeek src dst) := fun _ =>
  (by decide : ∀ c d : Fin 4, packCw 0 0x02 c.val d.val &&& 0xFCFC = 0x0800) src dst

theorem rAt (c : Ctx) : Statement (.rAt c) := fun _ =>
  (by decide : ∀ c : Fin 4, packCw 0 0x03 c.val 0 &&& 0xFCFF = 0x0C00) c

theorem rUint8 (c : Ctx) (w : Nat) : Statement (.rUint8 c w) := fun h =>
  (by decide : ∀ w < 9, ∀ c : Fin 4, packCw 0 0x04 c.val w &&& 0xFC80 = 0x1000) w (Nat.lt_succ_of_le (width_le h)) c

theorem rUint16 (c : Ctx) (w : Nat) : Statement (.rUint16 c w) := fun h =>
  (by decide : ∀ w < 17, ∀ c : Fin 4, packCw 0 0x05 c.val w &&& 0xFC80 = 0x1400) w (Nat.lt_succ_of_le (width_le h)) c

theorem rUint32 (c : Ctx) (w : Nat) : Statement (.rUint32 c w) := fun h =>
  (by decide : ∀ w < 33, ∀ c : Fin 4, packCw 0 0x06 c.val w &&& 0xFC80 = 0x1800) w (Nat.lt_succ_of_le (width_le h)) c

theorem rUint64 (c : Ctx) (w : Nat) : Statement (.rUint64 c w) := fun h =>
  (by decide : ∀ w < 65, ∀ c : Fin 4, packCw 0 0x07 c.val w &&& 0xFC80 = 0x1C00) w (Nat.lt_succ_of_le (width_le h)) c

theorem rInt8 (c : Ctx) (w : Nat) : Statement (.rInt8 c w) := fun h =>
  (by decide : ∀ w < 9, ∀ c : Fin 4, packCw 0 0x08 c.val w &&& 0xFC80 = 0x2000) w (Nat.lt_succ_of_le (width_le h)) c

theorem rInt16 (c : Ctx) (w : Nat) : Statement (.rInt16 c w) := fun h =>
  (by decide : ∀ w < 17, ∀ c : Fin 4, packCw 0 0x09 c.val w &&& 0xFC80 = 0x2400) w (Nat.lt_succ_of_le (width_le h)) c

theorem rInt32 (c : Ctx) (w : Nat) : Statement (.rInt32 c w) := fun h =>
  (by decide : ∀ w < 33, ∀ c : Fin 4, packCw 0 0x0A c.val w &&& 0xFC80 = 0x2800) w (Nat.lt_succ_of_le (width_le h)) c

theorem rInt64 (c : Ctx) (w : Nat) : Statement (.rInt64 c w) := fun h =>
  (by decide : ∀ w < 65, ∀ c : Fin 4, packCw 0 0x0B c.val w &&& 0xFC80 = 0x2C00) w (Nat.lt_succ_of_le (width_le h)) c

theorem rByte (c : Ctx) : Statement (.rByte c) := fun _ =>
  (by decide : ∀ c : Fin 4, packCw 0 0x0C c.val 0 &&& 0xFCFF = 0x3000) c

theorem rLe16 (c : Ctx) : Statement (.rLe16 c) := fun _ =>
  (by decide : ∀ c : Fin 4, packCw 0 0x0D c.val 0 &&& 0xFCFF = 0x3400) c

theorem rLe32 (c : Ctx) : Statement (.rLe32 c) := fun _ =>
  (by decide : ∀ c : Fin 4, packCw 0 0x0E c.val 0 &&& 0xFCFF = 0x3800) c

theorem rLe64 (c : Ctx) : Statement (.rLe64 c) := fun _ =>
  (by decide : ∀ c : Fin 4, packCw 0 0x0F c.val 0 &&& 0xFCFF = 0x3C00) c

theorem rBe16 (c : Ctx) : Statement (.rBe16 c) := fun _ =>
  (by decide : ∀ c : Fin 4, packCw 0 0x11 c.val 0 &&& 0xFCFF = 0x4400) c

theorem rBe32 (c : Ctx) : Statement (.rBe32 c) := fun _ =>
  (by decide : ∀ c : Fin 4, packCw 0 0x12 c.val 0 &&& 0xFCFF = 0x4800) c

theorem rBe64 (c : Ctx) : Statement (.rBe64 c) := fun _ =>
  (by decide : ∀ c : Fin 4, packCw 0 0x13 c.val 0 &&& 0xFCFF = 0x4C00) c

theorem rLeftBits (c : Ctx) : Statement (.rLeftBits c) := fun _ =>
  (by decide : ∀ c : Fin 4, packCw 0 0x14 c.val 0 &&& 0xFCFF = 0x5000) c

theorem rLeftBytes (c : Ctx) : Statement (.rLeftBytes c) := fun _ =>
  (by decide : ∀ c : Fin 4, packCw 0 0x15 c.val 0 &&& 0xFCFF = 0x5400) c

theorem rReset (c : Ctx) : Statement (.rReset c) := fun _ =>
  (by decide : ∀ c : Fin 4, packCw 0 0x16 c.val 0 &&& 0xFCFF = 0x5800) c

theorem rError (c : Ctx) : Statement (.rError c) := fun _ =>
  (by decide : ∀ c : Fin 4, packCw 0 0x17 c.val 0 &&& 0xFCFF = 0x5C00) c

theorem rNew (len : Word) : Statement (.rNew len) := fun _ => (by decide : packCw 0 0x18 0 0 &&& 0xFFFF = 0x6000)

theorem wAt : Statement .wAt := fun _ => by decide

theorem wPutU8 (w : Nat) (value : Word) : Statement (.wPutU8 w value) := fun h =>
  (by decide : ∀ w < 9, packCw 1 0x04 0 w &&& 0xFF80 = 0x9000) w (Nat.lt_succ_of_le (width_le h))

theorem wPutU16 (w : Nat) (value : Word) : Statement (.wPutU16 w value) := fun h =>
  (by decide : ∀ w < 17, packCw 1 0x05 0 w &&& 0xFF80 = 0x9400) w (Nat.lt_succ_of_le (width_le h))

theorem wPutU32 (w : Nat) (value : Word) : Statement (.wPutU32 w value) := fun h =>
  (by decide : ∀ w < 33, packCw 1 0x06 0 w &&& 0xFF80 = 0x9800) w (Nat.lt_succ_of_le (width_le h))

theorem wPutU64 (w : Nat) (value : Word) : Statement (.wPutU64 w value) := fun h =>
  (by decide : ∀ w < 65, packCw 1 0x07 0 w &&& 0xFF80 = 0x9C00) w (Nat.lt_succ_of_le (width_le h))

theorem wPutByte (value : Word) : Statement (.wPutByte value) := fun _ => (by decide : packCw 1 0x0C 0 0 &&& 0xFFFF = 0xB000)

theorem wPutLe16 (value : Word) : Statement (.wPutLe16 value) := fun _ => (by decide : packCw 1 0x0D 0 0 &&& 0xFFFF = 0xB400)

theorem wPutLe32 (value : Word) : Statement (.wPutLe32 value) := fun _ => (by decide : packCw 1 0x0E 0 0 &&& 0xFFFF = 0xB800)

theorem wPutLe64 (value : Word) : Statement (.wPutLe64 value) := fun _ => (by decide : packCw 1 0x0F 0 0 &&& 0xFFFF = 0xBC00)

theorem wPutBe16 (value : Word) : Statement (.wPutBe16 value) := fun _ => (by decide : packCw 1 0x11 0 0 &&& 0xFFFF = 0xC400)

theorem wPutBe32 (value : Word) : Statement (.wPutBe32 value) := fun _ => (by decide : packCw 1 0x12 0 0 &&& 0xFFFF = 0xC800)

theorem wPutBe64 (value : Word) : Statement (.wPutBe64 value) := fun _ => (by decide : packCw 1 0x13 0 0 &&& 0xFFFF = 0xCC00)

theorem wFlush : Statement .wFlush := fun _ => by decide

theorem wReset : Statement .wReset := fun _ => by decide

theorem wError : Statement .wError := fun _ => by decide

theorem wNew (len : Word) : Statement (.wNew len) := fun _ => (by decide : packCw 1 0x18 0 0 &&& 0xFFFF = 0xE000)

end RowMatch
end Sys2Proof.Laws
end

