-- ==== Sys2Proof/Laws/Vocabulary.lean ====
section
/-! SUPPORT. From the words the statements are written in to the model's own operations: the pure functions of 00_scope.md
R7 to R11 as sums, and the next states written out. -/

namespace Sys2Proof.Spec

open Sys2Proof Sys2Proof.Machine

/-- The written-out next state of a consumption is the model's. -/
theorem afterConsume_eq (s : State) (c : Ctx) (w : Nat) (res : Word) :
    afterConsume s c w res = (s.setCtx c ((s.ctx c).advance s.rd.len.toNat w)).respond res 0 := by
  rw [Cursor.advance_eq]; rfl

/-- The written-out next state of a production is the model's. -/
theorem afterProduce_eq (s : State) (w : Nat) (m : Memory) :
    afterProduce s w m = ((s.setWbuf m).setWriterCursor (s.wr.cur.advance s.wr.len.toNat w)).respond 0 0 := by
  rw [Cursor.advance_eq]; rfl

/-- Where the bytes of the field hold the values of `B`, so do its stream bits. -/
theorem sbit_holds {m : Memory} {B : Nat → Byte} {L p w i : Nat} (h : Holds m B L p w) (h1 : p ≤ i) (h2 : i < p + w) :
    sbit m L i = some (sbitOf B L i) := by
  by_cases hi : i < 8 * L
  · rw [sbit_inside hi (h i h1 h2 hi), sbitOf, if_pos hi, bitOfByte]
  · rw [sbit_past m (by omega), sbitOf, if_neg hi]

/-- And so does the field. -/
theorem extract_holds {m : Memory} {B : Nat → Byte} {L p w : Nat} (h : Holds m B L p w) :
    extract m L p w = some (fieldOf B L p w) :=
  extract_of_bits fun j hj => sbit_holds h (by omega) (by omega)

theorem sbitOf_lt (B : Nat → Byte) (L i : Nat) : sbitOf B L i < 2 := by
  unfold sbitOf; split <;> omega

/-- One more bit at the low end (R8). -/
theorem fieldOf_succ (B : Nat → Byte) (L p w : Nat) :
    fieldOf B L p (w + 1) = 2 * fieldOf B L p w + sbitOf B L (p + w) := by
  unfold fieldOf
  rw [Finset.sum_range_succ, Finset.mul_sum]
  congr 1
  · refine Finset.sum_congr rfl fun j hj => ?_
    have : j < w := Finset.mem_range.1 hj
    rw [show w + 1 - 1 - j = (w - 1 - j) + 1 by omega, pow_succ]; ring
  · simp

/-- R8: a field of `w` bits is below `2^w`. -/
theorem fieldOf_lt (B : Nat → Byte) (L p w : Nat) : fieldOf B L p w < 2 ^ w := by
  induction w with
  | zero => simp [fieldOf]
  | succ w ih => have h := sbitOf_lt B L (p + w); rw [fieldOf_succ, pow_succ]; omega

/-- R8: a field splits at every point. -/
theorem fieldOf_add (B : Nat → Byte) (L p a b : Nat) :
    fieldOf B L p (a + b) = fieldOf B L p a * 2 ^ b + fieldOf B L (p + a) b := by
  induction b with
  | zero => simp [fieldOf]
  | succ b ih => rw [← Nat.add_assoc, fieldOf_succ, ih, fieldOf_succ, pow_succ, Nat.add_assoc p]; ring

theorem fieldOf_one (B : Nat → Byte) (L p : Nat) : fieldOf B L p 1 = sbitOf B L p := by simp [fieldOf]

/-- One more byte at the low end (R11). -/
theorem beOf_succ (k : Nat) (b : Nat → Nat) : beOf (k + 1) b = beOf k b * 256 + b k := by
  unfold beOf
  rw [Finset.sum_range_succ, Finset.sum_mul]
  congr 1
  · refine Finset.sum_congr rfl fun j hj => ?_
    have : j < k := Finset.mem_range.1 hj
    rw [show 8 * (k + 1 - 1 - j) = 8 * (k - 1 - j) + 8 by omega, pow_add]; ring
  · simp

/-- A field of `8k` bits is the big-endian assembly of its bytes (R11, R100). -/
theorem fieldOf_be (B : Nat → Byte) (L p k : Nat) :
    fieldOf B L p (8 * k) = beOf k fun i => fieldOf B L (p + 8 * i) 8 := by
  induction k with
  | zero => simp [fieldOf, beOf]
  | succ k ih => rw [beOf_succ, Nat.mul_succ, fieldOf_add, ih]; norm_num

/-- The bytes of a big-endian assembly. -/
theorem beOf_byte {k : Nat} {b : Nat → Nat} (hb : ∀ i, b i < 256) {i : Nat} (hi : i < k) :
    beOf k b / 256 ^ (k - 1 - i) % 256 = b i := by
  induction k generalizing i with
  | zero => omega
  | succ k ih =>
    rw [beOf_succ]
    rcases Nat.lt_succ_iff_lt_or_eq.1 hi with h | rfl
    · rw [show k + 1 - 1 - i = (k - 1 - i) + 1 by omega, pow_succ', ← Nat.div_div_eq_div_mul,
        show (beOf k b * 256 + b k) / 256 = beOf k b by have := hb k; omega, ih h]
    · have := hb i; simp; omega

theorem beOf_lt {b : Nat → Nat} (hb : ∀ i, b i < 256) (k : Nat) : beOf k b < 256 ^ k := by
  induction k with
  | zero => simp [beOf]
  | succ k ih => rw [beOf_succ, pow_succ]; have := hb k; omega

theorem leOf_rev (k : Nat) (b : Nat → Nat) : leOf k b = beOf k fun i => b (k - 1 - i) := by
  unfold leOf beOf
  rw [← Finset.sum_range_reflect]

/-- R11: reversing a big-endian assembly gives the little-endian one. -/
theorem bswap_beOf {k : Nat} {b : Nat → Nat} (hb : ∀ i, b i < 256) : bswap k (beOf k b) = leOf k b := by
  rw [leOf_rev]
  refine eq_of_bytes (bswap_lt _ _) (beOf_lt (fun i => hb _) k) fun i hi => ?_
  rw [bswap_byte _ hi, beOf_byte hb hi]
  have := beOf_byte (b := fun i => b (k - 1 - i)) (fun i => hb _) (i := k - 1 - i) (k := k) (by omega)
  rw [show k - 1 - (k - 1 - i) = i by omega] at this
  exact this.symm

theorem pow_256 (k : Nat) : (256 : Nat) ^ k = 2 ^ (8 * k) := by rw [pow_mul]; norm_num

/-- A byte-reversed value is the big-endian assembly of its bytes, the least significant first. -/
theorem bswap_be (k v : Nat) : bswap k v = beOf k (byteOf v) := by
  refine eq_of_bytes (bswap_lt _ _) (beOf_lt (fun i => Nat.mod_lt _ (by decide)) k) fun i hi => ?_
  rw [bswap_byte _ hi]
  have := beOf_byte (b := byteOf v) (fun i => Nat.mod_lt _ (by decide)) (i := k - 1 - i) (k := k) (by omega)
  rw [show k - 1 - (k - 1 - i) = i by omega] at this
  rw [this, byteOf, pow_256]

theorem signedOf_eq (r w : Nat) : signedOf r w = tosigned r w := by simp [signedOf, tosigned]

/-- A field of WBUF, read as a stream, is the value whose bits the host sees there. -/
theorem fieldOf_hostBits {s : State} {L p w f : Nat} (hL : p + w ≤ 8 * L) (hf : f < 2 ^ w) (h : ∀ j < w, hostBit s (p + j) = f / 2 ^ (w - 1 - j) % 2) :
    fieldOf s.hostReadWbuf L p w = f := by
  have key : ∀ k ≤ w, fieldOf s.hostReadWbuf L p k = f / 2 ^ (w - k) := by
    intro k hk
    induction k with
    | zero => simp [fieldOf, Nat.div_eq_of_lt hf]
    | succ k ih =>
      rw [fieldOf_succ, ih (by omega), sbitOf, if_pos (by omega)]
      have := h k (by omega)
      unfold hostBit at this
      rw [this, show w - k = (w - (k + 1)) + 1 by omega, pow_succ, ← Nat.div_div_eq_div_mul, show w - 1 - k = w - (k + 1) by omega]
      omega
  rw [key w le_rfl]; simp

end Sys2Proof.Spec
end

