-- ==== Sys2Proof/Laws/Units.lean ====
section
/-! SUPPORT. What each unit depends on and what it touches: a command of one unit runs alike in every state that agrees on
that unit (10_state.md R32), and no command touches the parameters, the power-on counter or the host's moves. -/

namespace Sys2Proof.Machine

open Sys2Proof Sys2Proof.Spec

/-- What every command leaves alone, and that it answers once. -/
theorem exec_frame {i : Instr} {s t : State} (h : exec i s = .next t) :
   t.cfg = s.cfg ∧ t.epoch = s.epoch ∧ t.pending = s.pending ∧ ∃ x, t.responses = s.responses ++ [x] := by
  rcases exec_next h with ⟨c, w, f, -, h⟩ | ⟨c, n, -, -, rfl⟩ | ⟨a, b, -, rfl⟩ | ⟨c, r, x, -, rfl, -⟩ | ⟨c, -, rfl⟩ | ⟨n, -, -, rfl⟩ |
    ⟨w, f, -, h⟩ | ⟨r, -, rfl⟩ | ⟨-, rfl⟩ | ⟨n, -, -, rfl⟩
  · obtain ⟨raw, -, -, rfl⟩ := consume_next h; exact ⟨rfl, rfl, rfl, _, rfl⟩
  all_goals try exact ⟨rfl, rfl, rfl, _, rfl⟩
  obtain ⟨-, rfl⟩ := produce_next h; exact ⟨rfl, rfl, rfl, _, rfl⟩

/-- A reader command depends on the reader and the parameters, and changes the reader and the transcript alone. -/
theorem reader_local {i : Instr} {s t : State} (hi : isWriter i = false) (he : exec i s = .next t) :
   ∃ x, t = { s with rd := t.rd, responses := s.responses ++ [x] } ∧ ∀ u : State, u.rd = s.rd → u.cfg = s.cfg →
     exec i u = .next { u with rd := t.rd, responses := u.responses ++ [x] } := by
  have hw := wf_of_exec_next he
  have hctx : ∀ (u : State), u.rd = s.rd → ∀ c, u.ctx c = s.ctx c := fun u h c => by simp only [State.ctx]; rw [h]
  rcases exec_next he with ⟨c, w, g, hs, h⟩ | ⟨c, n, rfl, hp, rfl⟩ | ⟨a, b, rfl, rfl⟩ | ⟨c, r, x, hx, rfl, haux⟩ | ⟨c, rfl, rfl⟩ | ⟨n, rfl, hn, rfl⟩ |
      ⟨w, g, hs, h⟩ | ⟨r, hx, rfl⟩ | ⟨rfl, rfl⟩ | ⟨n, rfl, hn, rfl⟩
  · obtain ⟨raw, hp, hr, rfl⟩ := consume_next h
    refine ⟨_, rfl, fun u h1 h2 => ?_⟩
    rw [exec_read hs hw, consume_ok (raw := raw) (by rw [hctx u h1]; exact hp) (by rw [hctx u h1, h1]; exact hr), hctx u h1, h1]
    simp [State.setCtx, State.respond, h1]
  · refine ⟨_, rfl, fun u h1 h2 => ?_⟩
    show requirePosition _ _ _ = _
    rw [requirePosition_ok (by rw [hctx u h1]; exact hp), hctx u h1, h1]
    simp [State.setCtx, State.respond, h1]
  · refine ⟨_, rfl, fun u h1 h2 => ?_⟩
    show Host.Outcome.next _ = _
    rw [hctx u h1]
    simp [State.setCtx, State.respond, h1]
  · refine ⟨_, rfl, fun u h1 h2 => ?_⟩
    rcases hx with rfl | rfl | rfl | rfl
    all_goals
      have e := Host.Outcome.next.inj he
      have e := congrArg State.responses e
      simp only [respond_responses, List.append_cancel_left_eq, List.cons.injEq, and_true] at e
      rw [← e]
      show Host.Outcome.next _ = _
      simp [State.respond, hctx u h1, h1]
  · exact ⟨_, rfl, fun u h1 h2 => by show Host.Outcome.next _ = _; simp [State.setCtx, State.respond, h1]⟩
  · refine ⟨_, rfl, fun u h1 h2 => ?_⟩
    show requireCapacity _ _ _ = _
    rw [requireCapacity_ok (by rw [h2]; exact hn)]
    simp [State.bindReader, State.respond, h1]
  · cases i <;> first | (cases hi; done) | cases hs
  · rcases hx with rfl | rfl | rfl <;> cases hi
  · cases hi
  · cases hi

/-- A writer command depends on the writer, the parameters and the power-on counter, and changes the writer and the
transcript alone. -/
theorem writer_local {i : Instr} {s t : State} (hi : isWriter i = true) (he : exec i s = .next t) :
   ∃ x, t = { s with wr := t.wr, responses := s.responses ++ [x] } ∧ ∀ u : State, u.wr = s.wr → u.cfg = s.cfg → u.epoch = s.epoch →
     exec i u = .next { u with wr := t.wr, responses := u.responses ++ [x] } := by
  have hw := wf_of_exec_next he
  rcases exec_next he with ⟨c, w, g, hs, h⟩ | ⟨c, n, rfl, hp, rfl⟩ | ⟨a, b, rfl, rfl⟩ | ⟨c, r, x, hx, rfl, haux⟩ | ⟨c, rfl, rfl⟩ | ⟨n, rfl, hn, rfl⟩ |
      ⟨w, g, hs, h⟩ | ⟨r, hx, rfl⟩ | ⟨rfl, rfl⟩ | ⟨n, rfl, hn, rfl⟩
  · cases i <;> first | (cases hi; done) | cases hs
  · cases hi
  · cases hi
  · rcases hx with rfl | rfl | rfl | rfl <;> cases hi
  · cases hi
  · cases hi
  · obtain ⟨hp, rfl⟩ := produce_next h
    refine ⟨_, rfl, fun u h1 h2 h3 => ?_⟩
    rw [exec_put hs hw, produce_ok (by rw [h1]; exact hp)]
    simp [State.setWbuf, State.setWriterCursor, State.respond, h1, produceBuf, h2, h3]
  · refine ⟨_, rfl, fun u h1 h2 h3 => ?_⟩
    rcases hx with rfl | rfl | rfl
    all_goals
      have e := Host.Outcome.next.inj he
      have e := congrArg State.responses e
      simp only [respond_responses, List.append_cancel_left_eq, List.cons.injEq, and_true] at e
      rw [← e]
      show Host.Outcome.next _ = _
      simp [State.respond, h1]
  · exact ⟨_, rfl, fun u h1 h2 _ => by show Host.Outcome.next _ = _; simp [State.setWriterCursor, State.respond, h1]⟩
  · refine ⟨_, rfl, fun u h1 h2 _ => ?_⟩
    show requireCapacity _ _ _ = _
    rw [requireCapacity_ok (by rw [h2]; exact hn)]
    simp [State.bindWriter, State.respond, h1]

end Sys2Proof.Machine
end

