-- ==== Sys2Proof/Tests/Slice0.lean ====
section
/-! SUPPORT. The model's own tests. Every expected value is taken from 95_test_vectors.md or worked out by hand from the rule
named; none is an answer of the model. At the end, for every statement that has hypotheses, a concrete state and operands
that meet them all. -/

namespace Sys2Proof.Tests

open Sys2Proof Sys2Proof.Machine Sys2Proof.Spec

/-! ## Small states -/

/-- Bytes at offsets 0, 1, .. of a memory. -/
def bytes (l : List Byte) : Memory := l.zipIdx.map fun x => (x.2, x.1)

/-- The cursor at `p` over `n` bytes, with the flag of 10_state.md R29. -/
def cursorAt (n p : Nat) : Cursor := { pos := BitVec.ofNat 64 p, err := if 8 * n < p then .overflow else .none }

/-- A reader bound to the bytes `l`, context 0 at `p`. -/
def rst (l : List Byte) (p : Nat) : State :=
  { State.reset with rd :=
      { len := BitVec.ofNat 64 l.length, buf := bytes l,
        ctx := (Vector.replicate nctx Cursor.zero).set 0 (cursorAt l.length p) (by decide) } }

/-- A writer bound to the bytes `l`, at `p`. -/
def wst (l : List Byte) (p : Nat) : State :=
  { State.reset with wr :=
      { len := BitVec.ofNat 64 l.length, buf := bytes l, cur := cursorAt l.length p } }

/-- The same with `WR_PARTIAL`. -/
def wstPartial (l : List Byte) (p : Nat) : State := { wst l p with cfg := { Config.default with wrPartial := true } }

/-- The state after a command that completes. -/
def after (i : Instr) (s : State) : State :=
  match exec i s with
  | .next t => t
  | .fault _ => State.reset
  | .refused _ => State.reset

/-- RES, and context 0, after a reader command. -/
def readOut (r : Result) : Option (Nat × Nat × ErrState) :=
  match r with
  | .next t => some ((lastRes t).toNat, (t.ctx 0).pos.toNat, (t.ctx 0).err)
  | .fault _ => none
  | .refused _ => none

/-- The first `n` bytes of WBUF, and the writer's cursor, after a writer command. -/
def writeOut (n : Nat) (r : Result) : Option (List (Option Byte) × Nat × ErrState) :=
  match r with
  | .next t => some ((List.range n).map t.wr.buf.read, t.wr.cur.pos.toNat, t.wr.cur.err)
  | .fault _ => none
  | .refused _ => none

/-- The last response of a command that completes. -/
def response (r : Result) : Option Response :=
  match r with
  | .next t => t.responses.getLast?
  | .fault _ => none
  | .refused _ => none

/-- Why a command was refused. -/
def refusal (r : Result) : Option Refusal :=
  match r with
  | .next _ => none
  | .fault _ => none
  | .refused x => some x

/-- Why a command faulted. -/
def faultOf (r : Result) : Option Fault :=
  match r with
  | .next _ => none
  | .fault x => some x
  | .refused _ => none

/-- Bytes that all hold values, as `readOut`'s writer counterpart shows them. -/
def vals (l : List Byte) : List (Option Byte) := l.map some

/-! ## WellFormed: an ill-formed term for each check (R65) -/

theorem test_wf_refuses_uint : (Instr.rUint8 0 0).wf = false ∧ (Instr.rUint8 0 9).wf = false ∧
    (Instr.rUint16 0 0).wf = false ∧ (Instr.rUint16 0 17).wf = false ∧ (Instr.rUint32 0 0).wf = false ∧
    (Instr.rUint32 0 33).wf = false ∧ (Instr.rUint64 0 0).wf = false ∧ (Instr.rUint64 0 65).wf = false := by decide

theorem test_wf_refuses_int : (Instr.rInt8 0 0).wf = false ∧ (Instr.rInt8 0 9).wf = false ∧
    (Instr.rInt16 0 0).wf = false ∧ (Instr.rInt16 0 17).wf = false ∧ (Instr.rInt32 0 0).wf = false ∧
    (Instr.rInt32 0 33).wf = false ∧ (Instr.rInt64 0 0).wf = false ∧ (Instr.rInt64 0 65).wf = false := by decide

theorem test_wf_refuses_putu : (Instr.wPutU8 0 1).wf = false ∧ (Instr.wPutU8 9 1).wf = false ∧
    (Instr.wPutU16 0 1).wf = false ∧ (Instr.wPutU16 17 1).wf = false ∧ (Instr.wPutU32 0 1).wf = false ∧
    (Instr.wPutU32 33 1).wf = false ∧ (Instr.wPutU64 0 1).wf = false ∧ (Instr.wPutU64 65 1).wf = false := by decide

theorem test_wf_accepts_limits : (Instr.rUint8 0 8).wf = true ∧ (Instr.rInt64 0 64).wf = true ∧
    (Instr.rInt16 0 1).wf = true ∧ (Instr.wPutU32 32 0).wf = true := by decide

/-! ## Decoding: words written out bit by bit, `U OP CTX Z WIDTH`, from the patterns of R63 and R64 -/

theorem test_decode_bitfield_bits :
    decode 0b0000001100000000 0 = .ok (.rBit 3) ∧ decode 0b0001000000001000 0 = .ok (.rUint8 0 8) ∧
    decode 0b0001010100001100 0 = .ok (.rUint16 1 12) ∧ decode 0b0001101000010100 0 = .ok (.rUint32 2 20) ∧
    decode 0b0001110001000000 0 = .ok (.rUint64 0 64) ∧ decode 0b0010000000000001 0 = .ok (.rInt8 0 1) ∧
    decode 0b0010010000010000 0 = .ok (.rInt16 0 16) ∧ decode 0b0010100000000101 0 = .ok (.rInt32 0 5) ∧
    decode 0b0010111101000000 0 = .ok (.rInt64 3 64) := by decide

theorem test_decode_bytes_bits :
    decode 0b0011000000000000 0 = .ok (.rByte 0) ∧ decode 0b0011010100000000 0 = .ok (.rLe16 1) ∧
    decode 0b0011101000000000 0 = .ok (.rLe32 2) ∧ decode 0b0011111100000000 0 = .ok (.rLe64 3) ∧
    decode 0b0100010000000000 0 = .ok (.rBe16 0) ∧ decode 0b0100100100000000 0 = .ok (.rBe32 1) ∧
    decode 0b0100111000000000 0 = .ok (.rBe64 2) := by decide

theorem test_decode_cursor_bits :
    decode 0b0000010000000000 17 = .ok (.rSkip 0 17) ∧ decode 0b0000101000000011 0 = .ok (.rPeek 2 3) ∧
    decode 0b0000110100000000 0 = .ok (.rAt 1) ∧ decode 0b0101000000000000 0 = .ok (.rLeftBits 0) ∧
    decode 0b0101010000000000 0 = .ok (.rLeftBytes 0) ∧ decode 0b0101100000000000 0 = .ok (.rReset 0) ∧
    decode 0b0101111000000000 0 = .ok (.rError 2) ∧ decode 0b0110000000000000 9 = .ok (.rNew 9) := by decide

theorem test_decode_writer_bits :
    decode 0b1000110000000000 0 = .ok .wAt ∧ decode 0b1001000000000101 7 = .ok (.wPutU8 5 7) ∧
    decode 0b1001010000001100 7 = .ok (.wPutU16 12 7) ∧ decode 0b1001100000100000 7 = .ok (.wPutU32 32 7) ∧
    decode 0b1001110001000000 7 = .ok (.wPutU64 64 7) ∧ decode 0b1011000000000000 7 = .ok (.wPutByte 7) ∧
    decode 0b1011010000000000 7 = .ok (.wPutLe16 7) ∧ decode 0b1011100000000000 7 = .ok (.wPutLe32 7) ∧
    decode 0b1011110000000000 7 = .ok (.wPutLe64 7) := by decide

theorem test_decode_writer_bits_control :
    decode 0b1100010000000000 7 = .ok (.wPutBe16 7) ∧ decode 0b1100100000000000 7 = .ok (.wPutBe32 7) ∧
    decode 0b1100110000000000 7 = .ok (.wPutBe64 7) ∧ decode 0b1101010000000000 0 = .ok .wFlush ∧
    decode 0b1101100000000000 0 = .ok .wReset ∧ decode 0b1101110000000000 0 = .ok .wError ∧
    decode 0b1110000000000000 7 = .ok (.wNew 7) := by decide

/-- V10, refused words: reserved operations. -/
theorem test_decode_reserved :
    decode 0x4000 0 = .error .reservedOp ∧ decode 0x6400 0 = .error .reservedOp ∧
    decode 0x7C00 0 = .error .reservedOp ∧ decode 0x8000 0 = .error .reservedOp ∧
    decode 0x8400 0 = .error .reservedOp ∧ decode 0x8800 0 = .error .reservedOp ∧
    decode 0xA000 0 = .error .reservedOp ∧ decode 0xC000 0 = .error .reservedOp ∧
    decode 0xD000 0 = .error .reservedOp ∧ decode 0xE400 0 = .error .reservedOp := by decide

/-- V10, refused words: must-be-zero fields. -/
theorem test_decode_must_be_zero :
    decode 0x0001 0 = .error .nonZeroWidth ∧ decode 0x3001 0 = .error .nonZeroWidth ∧
    decode 0x5401 0 = .error .nonZeroWidth ∧ decode 0x6001 1 = .error .nonZeroWidth ∧
    decode 0xD401 0 = .error .nonZeroWidth ∧ decode 0x0080 0 = .error .zBitSet ∧
    decode 0x1088 0 = .error .zBitSet ∧ decode 0xB080 0 = .error .zBitSet ∧
    decode 0x0804 0 = .error .nonZeroPeekBits ∧ decode 0x6100 1 = .error .nonZeroCtx ∧
    decode 0x9101 1 = .error .nonZeroCtx ∧ decode 0xD500 0 = .error .nonZeroCtx := by decide

/-- V10, refused by the width (R65). -/
theorem test_width_refused :
    ([0x1000, 0x1009, 0x1411, 0x1821, 0x1C41, 0x1C7F, 0x2000, 0x2C41, 0x9000, 0x9009, 0x9C41] : List CmdWord).map
      (fun cw => refusal (takeMove (.command cw 1) State.reset)) =
        List.replicate 11 (some .widthOutOfRange) := by decide +kernel

/-- The encoder gives the words of V10. -/
theorem test_encode_printed_words :
    encode (.rPeek 2 3) = (0x0A03, 0) ∧ encode (.rUint32 2 20) = (0x1A14, 0) ∧ encode (.rInt64 3 64) = (0x2F40, 0) ∧
    encode (.rBe32 0) = (0x4800, 0) ∧ encode (.rSkip 0 9) = (0x0400, 9) ∧ encode (.wPutU16 12 0x234) = (0x940C, 0x234) ∧
    encode (.wPutLe64 5) = (0xBC00, 5) ∧ encode .wFlush = (0xD400, 0) ∧ encode (.wNew 2) = (0xE000, 2) := by decide

/-- The numbering of the table: CW in bits 15..0, OPD above. -/
theorem test_table_word :
    decodeTableWord 16 0x1A14 = some (.rUint32 2 20) ∧ decodeTableWord 80 0x59005 = some (.wPutU8 5 5) ∧
    decodeTableWord 16 0x59005 = some (.wPutU8 5 0) ∧ decodeTableWord 16 0x4000 = none := by
  decide +kernel

/-! ## Reader: bit fields (V1, V2, V3) -/

theorem test_bit_last : readOut (exec (.rBit 0) (rst [0x01] 7)) = some (1, 8, .none) := by decide
theorem test_bit_past : readOut (exec (.rBit 0) (rst [0xFF] 20)) = some (0, 21, .overflow) := by decide
theorem test_uint8_inside : readOut (exec (.rUint8 0 5) (rst [0xB4] 3)) = some (0x14, 8, .none) := by decide
theorem test_uint8_crossing : readOut (exec (.rUint8 0 8) (rst [0xFF] 4)) = some (0xF0, 12, .overflow) := by decide
theorem test_uint16_unaligned : readOut (exec (.rUint16 0 12) (rst [0x12, 0x34] 4)) = some (0x234, 16, .none) := by decide
theorem test_uint16_crossing :
    readOut (exec (.rUint16 0 16) (rst [0x12, 0x34] 8)) = some (0x3400, 24, .overflow) := by decide
theorem test_uint32_five_bytes :
    readOut (exec (.rUint32 0 32) (rst [0x12, 0x34, 0x56, 0x78, 0x9A] 3)) = some (0x91A2B3C4, 35, .none) := by decide
theorem test_uint32_seventeen :
    readOut (exec (.rUint32 0 17) (rst [0x12, 0x34, 0x56, 0x78] 0)) = some (0x2468, 17, .none) := by decide
theorem test_uint64_nine_bytes :
    readOut (exec (.rUint64 0 64) (rst [0x12, 0x34, 0x56, 0x78, 0x9A, 0xBC, 0xDE, 0xFF, 0xFF] 8)) =
      some (0x3456789ABCDEFFFF, 72, .none) := by decide
theorem test_uint64_one_real_bit :
    readOut (exec (.rUint64 0 64) (rst [0x12, 0x34, 0x56, 0x78, 0x9A, 0xBC, 0xDE, 0xFF] 63)) =
      some (0x8000000000000000, 127, .overflow) := by decide
theorem test_int8_most_negative : readOut (exec (.rInt8 0 8) (rst [0x80] 0)) = some (0xFFFFFFFFFFFFFF80, 8, .none) := by
  decide
theorem test_int8_sign_from_real_bit :
    readOut (exec (.rInt8 0 4) (rst [0x01] 7)) = some (0xFFFFFFFFFFFFFFF8, 11, .overflow) := by decide
theorem test_int16_minus_one :
    readOut (exec (.rInt16 0 8) (rst [0x0F, 0xF0] 4)) = some (0xFFFFFFFFFFFFFFFF, 12, .none) := by decide
theorem test_int16_top_bit_clear : readOut (exec (.rInt16 0 9) (rst [0x0F, 0xF0] 3)) = some (255, 12, .none) := by decide
/-- S1, step 3: a lone set bit is -1. -/
theorem test_int32_one_bit : readOut (exec (.rInt32 0 1) (rst [0x7E] 1)) = some (0xFFFFFFFFFFFFFFFF, 2, .none) := by decide
theorem test_int32_all_ones :
    readOut (exec (.rInt32 0 31) (rst [0x7F, 0xFF, 0xFF, 0xFF] 1)) = some (0xFFFFFFFFFFFFFFFF, 32, .none) := by decide
theorem test_int64_raw :
    readOut (exec (.rInt64 0 64) (rst [0x80, 0, 0, 0, 0, 0, 0, 0] 0)) = some (0x8000000000000000, 64, .none) := by decide
theorem test_int64_crossing : readOut (exec (.rInt64 0 8) (rst [0x40] 1)) = some (0xFFFFFFFFFFFFFF80, 9, .overflow) := by
  decide

/-! ## Reader: whole bytes (V4) -/

/-- The buffer of V4. -/
def nine : List Byte := [0x11, 0x22, 0x33, 0x44, 0x55, 0x66, 0x77, 0x88, 0x99]

theorem test_byte_crossing : readOut (exec (.rByte 0) (rst nine 68)) = some (0x90, 76, .overflow) := by decide
theorem test_le16_unaligned : readOut (exec (.rLe16 0) (rst nine 4)) = some (0x2312, 20, .none) := by decide
theorem test_be16_one_left : readOut (exec (.rBe16 0) (rst nine 64)) = some (0x9900, 80, .overflow) := by decide
theorem test_le32_three_left : readOut (exec (.rLe32 0) (rst nine 48)) = some (0x00998877, 80, .overflow) := by decide
theorem test_be32_unaligned : readOut (exec (.rBe32 0) (rst nine 4)) = some (0x12233445, 36, .none) := by decide
theorem test_le64_to_the_end : readOut (exec (.rLe64 0) (rst nine 8)) = some (0x9988776655443322, 72, .none) := by decide
theorem test_be64_crossing : readOut (exec (.rBe64 0) (rst nine 12)) = some (0x2334455667788990, 76, .overflow) := by
  decide

/-! ## Reader: cursors (V5) -/

theorem test_skip_to_end : readOut (exec (.rSkip 0 8) (rst [0x41] 0)) = some (0, 8, .none) := by decide
theorem test_skip_past_bound :
    refusal (exec (.rSkip 0 0xFFFFFFFFFFFFFFFD) (rst [0x41] 3)) = some .positionOutOfRange ∧
    readOut (exec (.rSkip 0 0xFFFFFFFFFFFFFFFC) (rst [0x41] 3)) = some (0, 2 ^ 64 - 1, .overflow) := by decide

/-- The contexts of V5's R.PEEK rows. -/
def four : State :=
  { rst [0x41, 0x42, 0x43, 0x44] 0 with rd :=
      { (rst [0x41, 0x42, 0x43, 0x44] 0).rd with ctx := #v[⟨13, .none⟩, ⟨0, .none⟩, ⟨40, .overflow⟩, ⟨5, .none⟩] } }

theorem test_peek_copies_flag :
    (after (.rPeek 2 3) four).rd.ctx = #v[⟨13, .none⟩, ⟨0, .none⟩, ⟨40, .overflow⟩, ⟨40, .overflow⟩] := by decide
theorem test_peek_replaces_flag :
    (after (.rPeek 3 2) four).rd.ctx = #v[⟨13, .none⟩, ⟨0, .none⟩, ⟨5, .none⟩, ⟨5, .none⟩] := by decide
theorem test_at_not_clamped : readOut (exec (.rAt 0) (rst [0x41] 13)) = some (13, 13, .overflow) := by decide
theorem test_leftbits :
    readOut (exec (.rLeftBits 0) (rst [1, 2] 3)) = some (13, 3, .none) ∧
    readOut (exec (.rLeftBits 0) (rst [1, 2] 17)) = some (0, 17, .overflow) := by decide
theorem test_leftbytes :
    response (exec (.rLeftBytes 0) (rst [1, 2] 1)) = some ⟨1, 1⟩ ∧
    response (exec (.rLeftBytes 0) (rst [1, 2] 9)) = some ⟨0, 2⟩ ∧
    response (exec (.rLeftBytes 0) (rst [1, 2] 0)) = some ⟨2, 0⟩ := by decide
theorem test_reset_clears : (after (.rReset 2) four).rd.ctx = #v[⟨13, .none⟩, ⟨0, .none⟩, ⟨0, .none⟩, ⟨5, .none⟩] := by
  decide
theorem test_error_code :
    readOut (exec (.rError 0) (rst [1, 2] 17)) = some (1, 17, .overflow) ∧
    readOut (exec (.rError 0) (rst [1, 2] 16)) = some (0, 16, .none) := by decide
theorem test_rnew_clears_all :
    (after (.rNew 64) four).rd = { len := 64, buf := four.rd.buf, ctx := Vector.replicate nctx Cursor.zero } ∧
    refusal (exec (.rNew 65) four) = some .lengthAboveCapacity := by decide
/-- U9: a byte the host never wrote. -/
theorem test_unwritten_byte :
    faultOf (exec (.rUint8 0 2) { rst [0xFF] 7 with rd := { (rst [0xFF] 7).rd with len := 2 } }) =
      some .rbufByteNeverWritten ∧
    readOut (exec (.rUint8 0 1) { rst [0xFF] 7 with rd := { (rst [0xFF] 7).rd with len := 2 } }) = some (1, 8, .none) := by
  decide

/-! ## Writer (V6, V7, V8) -/

theorem test_putu8_two_bytes :
    writeOut 2 (exec (.wPutU8 4 0) (wst [0xFF, 0xFF] 6)) = some (vals [0xFC, 0x3F], 10, .none) := by decide
theorem test_putu8_crossing :
    writeOut 1 (exec (.wPutU8 8 0xFF) (wst [0xAB] 4)) = some (vals [0xAB], 12, .overflow) ∧
    writeOut 1 (exec (.wPutU8 8 0xFF) (wstPartial [0xAB] 4)) = some (vals [0xAF], 12, .overflow) := by decide
theorem test_putu16_three_bytes :
    writeOut 3 (exec (.wPutU16 10 0x201) (wst [0, 0, 0] 7)) = some (vals [0x01, 0x00, 0x80], 17, .none) := by decide
theorem test_putu16_partial :
    writeOut 2 (exec (.wPutU16 16 0xFFFF) (wstPartial [0, 0] 1)) = some (vals [0x7F, 0xFF], 17, .overflow) := by decide
theorem test_putu32_unaligned :
    writeOut 5 (exec (.wPutU32 32 0x91A2B3C4) (wst [0, 0, 0, 0, 0] 3)) =
      some (vals [0x12, 0x34, 0x56, 0x78, 0x80], 35, .none) := by decide
theorem test_putu32_keeps_others :
    writeOut 4 (exec (.wPutU32 24 0) (wst [0xFF, 0xFF, 0xFF, 0xFF] 8)) =
      some (vals [0xFF, 0x00, 0x00, 0x00], 32, .none) := by decide
theorem test_putu64_nine_bytes :
    writeOut 9 (exec (.wPutU64 64 0x123456789ABCDEFF) (wst [0, 0, 0, 0, 0, 0, 0, 0, 0] 4)) =
      some (vals [0x01, 0x23, 0x45, 0x67, 0x89, 0xAB, 0xCD, 0xEF, 0xF0], 68, .none) := by decide
theorem test_putu64_one_bit_too_many :
    writeOut 8 (exec (.wPutU64 64 0xFFFFFFFFFFFFFFFF) (wst [0, 0, 0, 0, 0, 0, 0, 0] 1)) =
      some (vals [0, 0, 0, 0, 0, 0, 0, 0], 65, .overflow) := by decide
theorem test_putbyte_unaligned :
    writeOut 2 (exec (.wPutByte 0xFF) (wst [0, 0] 4)) = some (vals [0x0F, 0xF0], 12, .none) := by decide
theorem test_putle16_unaligned :
    writeOut 3 (exec (.wPutLe16 0x1234) (wst [0, 0, 0] 4)) = some (vals [0x03, 0x41, 0x20], 20, .none) := by decide
theorem test_putle16_partial :
    writeOut 2 (exec (.wPutLe16 0x1234) (wstPartial [0, 0] 8)) = some (vals [0x00, 0x34], 24, .overflow) := by decide
theorem test_putbe16 : writeOut 2 (exec (.wPutBe16 0x1234) (wst [0, 0] 0)) = some (vals [0x12, 0x34], 16, .none) := by
  decide
theorem test_putbe16_partial :
    writeOut 2 (exec (.wPutBe16 0x1234) (wstPartial [0, 0] 8)) = some (vals [0x00, 0x12], 24, .overflow) := by decide
theorem test_putle32_high_ignored :
    writeOut 4 (exec (.wPutLe32 0x9912345678) (wst [0, 0, 0, 0] 0)) =
      some (vals [0x78, 0x56, 0x34, 0x12], 32, .none) := by decide
theorem test_putbe32 :
    writeOut 4 (exec (.wPutBe32 0x12345678) (wst [0, 0, 0, 0] 0)) =
      some (vals [0x12, 0x34, 0x56, 0x78], 32, .none) := by decide
theorem test_putle64_unaligned :
    writeOut 9 (exec (.wPutLe64 0x0123456789ABCDEF) (wst [0, 0, 0, 0, 0, 0, 0, 0, 0] 4)) =
      some (vals [0x0E, 0xFC, 0xDA, 0xB8, 0x96, 0x74, 0x52, 0x30, 0x10], 68, .none) := by decide
theorem test_putbe64 :
    writeOut 8 (exec (.wPutBe64 0x0123456789ABCDEF) (wst [0, 0, 0, 0, 0, 0, 0, 0] 0)) =
      some (vals [0x01, 0x23, 0x45, 0x67, 0x89, 0xAB, 0xCD, 0xEF], 64, .none) := by decide
theorem test_flush_reports :
    response (exec .wFlush (wst [0xAB] 9)) = some ⟨1, 0⟩ ∧
    writeOut 1 (exec .wFlush (wst [0xAB] 3)) = some (vals [0xAB], 3, .none) := by decide
theorem test_werror_reports :
    response (exec .wError (wst [0xAB] 9)) = some ⟨1, 0⟩ ∧ response (exec .wError (wst [0xAB] 8)) = some ⟨0, 0⟩ := by decide
theorem test_wat_not_clamped : response (exec .wAt (wst [0xAB] 20)) = some ⟨20, 0⟩ := by decide
theorem test_wreset_keeps_buffer : writeOut 1 (exec .wReset (wst [0xAB] 20)) = some (vals [0xAB], 0, .none) := by decide
theorem test_wnew_keeps_buffer :
    (after (.wNew 64) (wst [0xAB, 0xCD] 3)).wr = { len := 64, buf := bytes [0xAB, 0xCD], cur := Cursor.zero } ∧
    refusal (exec (.wNew 65) (wst [0xAB, 0xCD] 3)) = some .lengthAboveCapacity := by decide

/-! ## The step -/

/-- A command of the table is the next thing that runs (P2, step 12's word on an empty reader: it overflows and reads 0). -/
theorem test_step_runs_fetched_word :
    step (State.reset.withFetchWord 16 0x1A14) = exec (.rUint32 2 20) State.reset ∧
    response (step (State.reset.withFetchWord 16 0x1A14)) = some ⟨0, 0⟩ := ⟨rfl, by decide⟩

theorem test_step_refuses_reserved :
    refusal (step (State.reset.withFetchWord 16 0x4000)) = some (.illegalEncoding .reservedOp) := by decide

/-- R184, R40: the host writes outside the bound stream alone, and inside the memory alone. -/
theorem test_host_writes_rbuf :
    refusal (takeMove (.writeRbuf 0 7) (rst [0x41] 0)) = some .bufferInUse ∧
    faultOf (takeMove (.writeRbuf 64 7) (rst [0x41] 0)) = some .noSuchBufferByte ∧
    (takeMove (.writeRbuf 1 7) (rst [0x41] 0) = .next ((rst [0x41] 0).setRbuf [(0, 0x41), (1, 7)])) :=
  ⟨by decide, by decide, rfl⟩

theorem test_host_writes_wbuf :
    refusal (takeMove (.writeWbuf 0 7) (wst [0x41] 0)) = some .bufferInUse ∧
    faultOf (takeMove (.writeWbuf 64 7) (wst [0x41] 0)) = some .noSuchBufferByte ∧
    (takeMove (.writeWbuf 63 7) (wst [0x41] 0) = .next ((wst [0x41] 0).setWbuf [(0, 0x41), (63, 7)])) :=
  ⟨by decide, by decide, rfl⟩

/-- R180. -/
theorem test_hardware_reset :
    takeMove .hardwareReset (rst nine 80) = .next { State.reset with epoch := 1 } := rfl

/-! ## Witnesses: states and operands that meet the hypotheses of each statement -/

/-- Bytes that hold the values of `B` throughout the stream do so in every field. -/
theorem holds_of_bytes {m : Memory} {B : Nat → Byte} {L : Nat} (h : ∀ a < L, m.read a = some (B a)) (p w : Nat) :
    Holds m B L p w := fun i _ _ hi => h (i / 8) (by omega)

theorem inv_iff (s : State) : Sys2Proof.Inv s ↔ s.cfg.wf ∧ s.rd.len.toNat ≤ s.cfg.rcap ∧ s.wr.len.toNat ≤ s.cfg.wcap ∧
    s.rd.buf.wf ∧ s.wr.buf.wf ∧ Within s.rd.buf s.cfg.rcap ∧ Within s.wr.buf s.cfg.wcap ∧
    (∀ c, Lawful (s.ctx c) s.rd.len) ∧ Lawful s.wr.cur s.wr.len :=
  ⟨fun ⟨a, b, c, d, e, f, g, h, i⟩ => ⟨a, b, c, d, e, f, g, h, i⟩,
    fun ⟨a, b, c, d, e, f, g, h, i⟩ => ⟨a, b, c, d, e, f, g, h, i⟩⟩

/-- A reader over the nine bytes of V4 at `p` and a writer over nine zero bytes at `q`. -/
def both (p q : Nat) : State := { rst nine p with wr := (wst [0, 0, 0, 0, 0, 0, 0, 0, 0] q).wr }

/-- The values of the nine bytes. -/
def nineAt (a : Nat) : Byte := nine.getD a 0

theorem both_inv : Sys2Proof.Inv (both 12 3) := (inv_iff _).2 (by decide)
theorem both_overflowed_inv : Sys2Proof.Inv (both 73 80) := (inv_iff _).2 (by decide)
theorem nine_holds (p q a w : Nat) : Holds (both p q).rd.buf nineAt 9 a w :=
  holds_of_bytes (by show ∀ a < 9, (bytes nine).read a = some (nineAt a); decide) a w

/-- `both` with a move pending. -/
def moving (m : HostMove) : State := { both 12 3 with pending := [m] }

theorem witness_encodeThenDecode :
    (Instr.rPeek 3 3).wf = true ∧ (Instr.rUint64 3 64).wf = true ∧ (Instr.rInt8 0 1).wf = true ∧
    (Instr.wPutU16 16 0xFFFFFFFFFFFFFFFF).wf = true ∧ (Instr.rSkip 0 0xFFFFFFFFFFFFFFFF).wf = true := by decide

theorem witness_decodeThenEncode :
    decode 0x0A03 7 = .ok (.rPeek 2 3) ∧ decode 0x0400 0xFFFFFFFFFFFFFFFF = .ok (.rSkip 0 0xFFFFFFFFFFFFFFFF) ∧
    decode 0x9000 1 = .ok (.wPutU8 0 1) ∧ decode 0x1C7F 0 = .ok (.rUint64 0 127) := by decide

/-- A legal command, and an illegal one. -/
theorem witness_refusedExactlyWhenIllegal :
    (moving (.command 0x1C40 0)).pending = [.command 0x1C40 0] ∧ Legal (moving (.command 0x1C40 0)) 0x1C40 0 ∧
    (moving (.command 0x1C41 0)).pending = [.command 0x1C41 0] ∧
    ∃ r, step (moving (.command 0x1C41 0)) = .refused r :=
  ⟨rfl, ⟨⟨0x1C00, 0xFC80, readWidth 64⟩, by simp [table, readerRows], by decide, by decide, by decide, by decide⟩, rfl,
    _, rfl⟩

theorem witness_stepRunsTheDecodedCommand :
    (moving (.command 0x1A14 0)).pending = [.command 0x1A14 0] ∧ decode 0x1A14 0 = .ok (.rUint32 2 20) ∧
    (moving (.command 0x0080 0)).pending = [.command 0x0080 0] ∧ decode 0x0080 0 = .error .zBitSet := by decide

theorem witness_idleStep : (both 12 3).pending = [] := rfl

/-- Each kind of move completes. -/
theorem witness_stepTakesOneMove :
    (∃ t, step (moving (.command 0x1A14 0)) = .next t) ∧ (∃ t, step (moving (.writeRbuf 9 1)) = .next t) ∧
    (∃ t, step (moving (.writeWbuf 63 1)) = .next t) ∧ ∃ t, step (moving .hardwareReset) = .next t :=
  ⟨⟨_, rfl⟩, ⟨_, rfl⟩, ⟨_, rfl⟩, ⟨_, rfl⟩⟩

/-- A hardware reset pending; and commands of at least one bit that complete after it. -/
theorem witness_hardwareReset :
    (moving .hardwareReset).pending = [.hardwareReset] ∧ consumes (.rBit 0) = some (0, 1) ∧
    produces (.wPutU8 1 1) = some 1 ∧ ∃ t u v, step (moving .hardwareReset) = .next t ∧
      exec (.rBit 0) t = .next u ∧ exec (.wPutU8 1 1) t = .next v := ⟨rfl, rfl, rfl, _, _, _, rfl, rfl, rfl⟩

/-- Offsets just inside the stream, just outside it, the last of the memory and the first beyond it. -/
theorem witness_hostWrites :
    (moving (.writeRbuf 9 1)).rd.len.toNat ≤ 9 ∧ 8 < (moving (.writeRbuf 8 1)).rd.len.toNat ∧
    63 < (moving (.writeRbuf 63 1)).cfg.rcap ∧ (moving (.writeRbuf 64 1)).cfg.rcap ≤ 64 ∧
    (moving (.writeWbuf 9 1)).wr.len.toNat ≤ 9 ∧ 8 < (moving (.writeWbuf 8 1)).wr.len.toNat ∧
    63 < (moving (.writeWbuf 63 1)).cfg.wcap ∧ (moving (.writeWbuf 64 1)).cfg.wcap ≤ 64 := by decide

/-- The position bound with the widest field, met just and failed just; and bytes that hold values. -/
theorem witness_reads :
    Holds (both 12 3).rd.buf nineAt 9 12 64 ∧ ((both 12 3).ctx 0).pos.toNat + 64 < 2 ^ 64 ∧
    ((rst nine (2 ^ 64 - 65)).ctx 0).pos.toNat + 64 < 2 ^ 64 ∧
    2 ^ 64 ≤ ((rst nine (2 ^ 64 - 64)).ctx 0).pos.toNat + 64 ∧
    2 ^ 64 ≤ ((rst nine (2 ^ 64 - 1)).ctx 0).pos.toNat + 1 := ⟨nine_holds 12 3 12 64, by decide, by decide, by decide, by decide⟩

theorem witness_sizes : (1 ≤ Size.n8.bits ∧ Size.n8.bits < 9) ∧ (64 ≤ Size.n64.bits ∧ Size.n64.bits < 65) := by decide

theorem witness_skip :
    ((both 12 3).ctx 0).pos.toNat + (0xFFFFFFFFFFFFFFF3 : Word).toNat < 2 ^ 64 ∧
    2 ^ 64 ≤ ((both 12 3).ctx 0).pos.toNat + (0xFFFFFFFFFFFFFFF4 : Word).toNat ∧ Sys2Proof.Inv (both 73 80) :=
  ⟨by decide, by decide, both_overflowed_inv⟩

/-- One context copied into itself. -/
theorem witness_peek : (1 : Ctx) ≠ 0 ∧ (2 : Ctx) = 2 := by decide

theorem witness_leftMeasures :
    Sys2Proof.Inv (both 12 3) ∧ ((both 12 3).ctx 0).pos.toNat ≤ 8 * (both 12 3).rd.len.toNat ∧
    ∃ t u x y, exec (.rLeftBits 0) (both 12 3) = .next t ∧ t.responses = (both 12 3).responses ++ [x] ∧
      exec (.rLeftBytes 0) (both 12 3) = .next u ∧ u.responses = (both 12 3).responses ++ [y] :=
  ⟨both_inv, by decide, _, _, _, _, rfl, rfl, rfl, rfl⟩

theorem witness_news : (64 : Word).toNat ≤ (both 12 3).cfg.rcap ∧ (both 12 3).cfg.rcap < (65 : Word).toNat ∧
    (64 : Word).toNat ≤ (both 12 3).cfg.wcap ∧ (both 12 3).cfg.wcap < (65 : Word).toNat := by decide

/-- The position bound of the writer, met just and failed just; a field that fits, one that does not, under each setting. -/
theorem witness_puts :
    (wst nine (2 ^ 64 - 65)).wr.cur.pos.toNat + 64 < 2 ^ 64 ∧
    2 ^ 64 ≤ (wst nine (2 ^ 64 - 64)).wr.cur.pos.toNat + 64 ∧ storedBits (wst nine 8) 64 = 64 ∧
    storedBits (wst nine 9) 64 = 0 ∧ storedBits (wstPartial nine 9) 64 = 63 ∧ storedBits (wstPartial nine 80) 64 = 0 := by
  decide

/-- A field whose last bit lies in a byte the host never wrote, and one that stops before it. -/
theorem witness_unwrittenByte :
    (Instr.rUint8 0 2).wf = true ∧ consumes (.rUint8 0 2) = some (0, 2) ∧ (∀ n, Instr.rUint8 0 2 ≠ .rSkip 0 n) ∧
    ((rst [0xFF] 7).ctx 0).pos.toNat + 2 < 2 ^ 64 ∧ (rst [0xFF] 7).rd.buf.read 1 = none :=
  ⟨rfl, rfl, fun _ h => (by cases h), by decide, rfl⟩

/-- Of each of the three clauses a command that completes; R.SKIP of no bits among them. -/
theorem witness_overflowExactly :
    (∃ t, exec (.rUint8 0 8) (both 65 3) = .next t ∧ consumes (.rUint8 0 8) = some (0, 8)) ∧
    (∃ t, exec (.wPutU8 8 0) (both 12 65) = .next t ∧ produces (.wPutU8 8 0) = some 8) ∧
    (∃ t, exec (.rPeek 0 1) (both 73 3) = .next t ∧ consumes (.rPeek 0 1) = none ∧ produces (.rPeek 0 1) = none ∧
      (t.ctx 1).err = .overflow) ∧
    ∃ t, exec (.rSkip 0 0) (both 73 80) = .next t ∧ consumes (.rSkip 0 0) = some (0, 0) ∧ Sys2Proof.Inv (both 73 80) :=
  ⟨⟨_, rfl, rfl⟩, ⟨_, rfl, rfl⟩, ⟨_, rfl, rfl, rfl, by decide⟩, ⟨_, rfl, rfl, both_overflowed_inv⟩⟩

theorem witness_afterOverflow :
    Sys2Proof.Inv (both 73 80) ∧ ((both 73 80).ctx 0).err = .overflow ∧ (both 73 80).wr.cur.err = .overflow ∧
    (∃ t, exec (.rInt64 0 64) (both 73 80) = .next t) ∧ ∃ t, exec (.wPutLe64 5) (both 73 80) = .next t :=
  ⟨both_overflowed_inv, by decide, by decide, ⟨_, rfl⟩, ⟨_, rfl⟩⟩

/-- An overflowed state with a rewinding move pending; R.PEEK of a fresh context clears a flag too. -/
theorem witness_flagCleared :
    ∃ s t u : State, Sys2Proof.Inv s ∧ s.pending = [.command 0x5800 0] ∧ step s = .next t ∧
      (s.ctx 0).err = .overflow ∧ (t.ctx 0).err = .none ∧
      step { s with pending := [.command 0x0900 0] } = .next u ∧ (u.ctx 0).err = .none ∧
      s.wr.cur.err = .overflow ∧ ∃ v, step { s with pending := [.command 0xD800 0] } = .next v ∧ v.wr.cur.err = .none :=
  ⟨{ both 73 80 with pending := [.command 0x5800 0] }, _, _, (inv_iff _).2 (by decide), rfl, rfl, by decide, by decide,
    rfl, by decide, by decide, _, rfl, rfl⟩

theorem witness_positions :
    ∃ t u, exec (.rUint8 0 8) (both 12 3) = .next t ∧ exec (.wPutU8 8 0) (both 12 3) = .next u := ⟨_, _, rfl, rfl⟩

/-- The same state with every flag turned over. -/
theorem witness_onlyReports :
    ∃ (t s' : State), exec (.rUint8 0 8) (both 12 3) = .next t ∧
      s' = { both 12 3 with
        rd := { (both 12 3).rd with ctx := s'.rd.ctx },
        wr := { (both 12 3).wr with cur := { (both 12 3).wr.cur with err := .overflow } } } ∧
      ∀ c, s'.ctx c = { (both 12 3).ctx c with err := .overflow } :=
  ⟨_, { both 12 3 with
      rd := { (both 12 3).rd with ctx := #v[⟨12, .overflow⟩, ⟨0, .overflow⟩, ⟨0, .overflow⟩, ⟨0, .overflow⟩] },
      wr := { (both 12 3).wr with cur := { (both 12 3).wr.cur with err := .overflow } } }, rfl, rfl, by decide⟩

/-- A state that meets the invariant and steps, by each kind of move. -/
theorem witness_everyStep :
    Sys2Proof.Inv (moving (.command 0x9C40 5)) ∧ (∃ t, step (moving (.command 0x9C40 5)) = .next t) ∧
    Sys2Proof.Inv (moving (.writeWbuf 63 1)) ∧ (∃ t, step (moving (.writeWbuf 63 1)) = .next t) ∧
    Sys2Proof.Inv (moving (.writeRbuf 9 1)) ∧ (∃ t, step (moving (.writeRbuf 9 1)) = .next t) ∧
    ∃ t, step (moving .hardwareReset) = .next t :=
  ⟨(inv_iff _).2 (by decide), ⟨_, rfl⟩, (inv_iff _).2 (by decide), ⟨_, rfl⟩, (inv_iff _).2 (by decide), ⟨_, rfl⟩, ⟨_, rfl⟩⟩

theorem witness_readerFrame :
    isWriter (.rUint8 1 8) = false ∧ On 1 (.rUint8 1 8) ∧ (2 : Ctx) ≠ 1 ∧ (∃ t, exec (.rUint8 1 8) (both 12 3) = .next t) ∧
    isWriter (.rPeek 0 1) = false ∧ ∃ t, exec (.rPeek 0 1) (both 12 3) = .next t :=
  ⟨rfl, rfl, by decide, ⟨_, rfl⟩, rfl, ⟨_, rfl⟩⟩

theorem witness_writerFrame :
    isWriter .wFlush = true ∧ produces .wFlush = none ∧ (∃ t, exec .wFlush (both 12 3) = .next t) ∧
    isWriter (.wPutBe16 1) = true ∧ ∃ t, exec (.wPutBe16 1) (both 12 3) = .next t := ⟨rfl, rfl, ⟨_, rfl⟩, rfl, ⟨_, rfl⟩⟩

/-- A field that fits over nine bytes; one that does not, with `WR_PARTIAL` false. -/
theorem witness_putStores :
    produces (.wPutU64 64 5) = some 64 ∧ (∃ t, exec (.wPutU64 64 5) (both 12 3) = .next t) ∧
    (both 12 9).cfg.wrPartial = false ∧ 8 * (both 12 9).wr.len.toNat < (both 12 9).wr.cur.pos.toNat + 64 ∧
    ∃ t, exec (.wPutU64 64 5) (both 12 9) = .next t := ⟨rfl, ⟨_, rfl⟩, rfl, by decide, ⟨_, rfl⟩⟩

theorem witness_earlierBits :
    (∀ i ∈ [Instr.wPutU8 4 15, .wFlush, .rBit 0], i ≠ .wReset ∧ ∀ n, i ≠ .wNew n) ∧
    (∃ t, execAll [.wPutU8 4 15, .wFlush, .rBit 0] (both 12 3) = .next t) ∧ 2 < (both 12 3).wr.cur.pos.toNat :=
  ⟨by simp, ⟨_, rfl⟩, by decide⟩

/-- A memory that differs at the first byte past the stream, and a read that ends there. -/
theorem witness_bytesPast :
    (∀ a, a < (both 12 3).rd.len.toNat →
      Memory.read ((both 12 3).rd.buf ++ [(9, 0xFF)]) a = (both 12 3).rd.buf.read a) ∧
    ∃ t, exec (.rUint64 0 64) (both 12 3) = .next t := ⟨by decide, ⟨_, rfl⟩⟩

/-- A read and the response it adds; two reads; widths legal for two sizes. -/
theorem witness_bitFieldLaws :
    (∃ t x, exec (uintOf .n8 0 5) (both 12 3) = .next t ∧ t.responses = (both 12 3).responses ++ [x]) ∧
    (∃ t x y, execAll [uintOf .n32 0 32, uintOf .n32 0 32] (both 3 3) = .next t ∧
      t.responses = (both 3 3).responses ++ [x, y] ∧ 32 + 32 ≤ Size.n64.bits) ∧ 8 ≤ Size.n8.bits ∧ 8 ≤ Size.n64.bits :=
  ⟨⟨_, _, rfl, rfl⟩, ⟨_, _, _, rfl, rfl, by decide⟩, by decide, by decide⟩

theorem witness_helpers :
    ((8, .rLe64 1, .rBe64 1) : Nat × Instr × Instr) ∈
      [(2, .rLe16 1, .rBe16 1), (4, .rLe32 1, .rBe32 1), (8, .rLe64 1, .rBe64 1)] ∧
    ∃ b, execAll (List.replicate 8 (.rByte 1)) (both 12 3) = .next b := ⟨by decide, ⟨_, rfl⟩⟩

theorem witness_snapshots :
    (1 : Ctx) ≠ 0 ∧ On 1 (.rUint8 1 3) ∧ On 0 (.rUint8 0 3) ∧
    [Instr.rUint8 0 3, .rAt 0].map (moveTo 1) = [Instr.rUint8 1 3, .rAt 1].map some ∧
    (∃ t, execAll [.rPeek 0 1, .rUint8 1 3] (both 12 3) = .next t) ∧
    ∃ t a, exec (.rPeek 0 1) (both 12 3) = .next t ∧ execAll [.rUint8 0 3, .rAt 0] t = .next a :=
  ⟨by decide, rfl, rfl, rfl, ⟨_, rfl⟩, ⟨_, _, rfl, rfl⟩⟩

theorem witness_replay :
    (both 0 0).ctx 0 = ⟨0, .none⟩ ∧ (∀ i ∈ [Instr.rUint8 0 3, .rInt64 0 64, .rError 0], On 0 i) ∧
    ∃ a b, execAll [.rUint8 0 3, .rInt64 0 64, .rError 0] (both 0 0) = .next a ∧ exec (.rReset 0) a = .next b :=
  ⟨by decide, by simp [On, moveTo], ⟨_, _, rfl, rfl⟩⟩

theorem witness_unitsCommute :
    isWriter (.rInt16 0 9) = false ∧ isWriter (.wPutLe16 0x1234) = true ∧
    ∃ a b, exec (.rInt16 0 9) (both 12 3) = .next a ∧ exec (.wPutLe16 0x1234) a = .next b :=
  ⟨rfl, rfl, ⟨_, _, rfl, rfl⟩⟩

/-- Two fields, one signed, that cover eight of the nine bytes; and one partition that covers all of them. -/
theorem witness_roundTrip :
    Sys2Proof.Inv (both 0 0) ∧
    (∀ x ∈ [Transfer.mk 5 true .n8 .n16, ⟨59, false, .n64, .n64⟩, ⟨8, true, .n32, .n8⟩], x.ok) ∧
    totalBits [⟨5, true, .n8, .n16⟩, ⟨59, false, .n64, .n64⟩, ⟨8, true, .n32, .n8⟩] = 8 * (both 0 0).rd.len.toNat ∧
    totalBits [⟨5, true, .n8, .n16⟩, ⟨59, false, .n64, .n64⟩, ⟨8, true, .n32, .n8⟩] = 8 * (both 0 0).wr.len.toNat ∧
    ((both 0 0).ctx 0).pos = 0 ∧ (both 0 0).wr.cur.pos = 0 ∧ Holds (both 0 0).rd.buf nineAt 9 0 72 :=
  ⟨(inv_iff _).2 (by decide), by simp [Transfer.ok, Size.bits], by decide, by decide, by decide, by decide,
    nine_holds 0 0 0 72⟩

/-- V6: `w.puti8 4, -8`, the least value of its width, read back from a copy of WBUF. -/
theorem witness_signedValues :
    (-(2 ^ (4 - 1)) : Int) ≤ -8 ∧ (-8 : Int) < 2 ^ (4 - 1) ∧
    ∃ t : State, exec (putOf .n8 4 (BitVec.ofInt 64 (-8))) (wst [0] 0) = .next t ∧
      ((rst [0x80] 0).ctx 0).pos = (wst [0] 0).wr.cur.pos ∧
      Holds (rst [0x80] 0).rd.buf t.hostReadWbuf 1 0 4 :=
  ⟨by decide, by decide, _, rfl, by decide, holds_of_bytes (by decide) 0 4⟩

/-- V7: `w.putle16 0x1234`, read back from a copy of WBUF. -/
theorem witness_helperPut :
    ((16, .wPutLe16 0x1234, .rLe16 0) : Nat × Instr × Instr) ∈
      [(8, .wPutByte 0x1234, .rByte 0), (16, .wPutLe16 0x1234, .rLe16 0)] ∧
    ∃ t : State, exec (.wPutLe16 0x1234) (wst [0, 0] 0) = .next t ∧
      ((rst [0x34, 0x12] 0).ctx 0).pos = (wst [0, 0] 0).wr.cur.pos ∧
      Holds (rst [0x34, 0x12] 0).rd.buf t.hostReadWbuf 2 0 16 :=
  ⟨by decide, _, rfl, by decide, holds_of_bytes (by decide) 0 16⟩

end Sys2Proof.Tests
end

section
/-! PROOFS of the statements about the state (10_state.md): the invariant, the positions, the flags, and the frames of the
two units. First what a command of each unit can do, named case by case; every proof here is a case split over that. -/

namespace Sys2Proof

open Sys2Proof.Machine Sys2Proof.Spec

variable {s t : State} {i : Instr}

/-! ## What a command of each unit can do -/

/-- A command that returns stream data consumes its width on its context. -/
theorem consumes_of_readShape {c : Ctx} {w : Nat} {form : Nat → Word} (h : readShape i = some (c, w, form)) :
    consumes i = some (c, w) := by
  cases i <;> cases h <;> rfl

/-- A command that stores a field produces its width. -/
theorem produces_of_putShape {w f : Nat} (h : putShape i = some (w, f)) : produces i = some w := by
  cases i <;> cases h <;> rfl

/-- Consuming commands are the reader's. -/
theorem isWriter_of_consumes {c : Ctx} {w : Nat} (h : consumes i = some (c, w)) : isWriter i = false := by
  cases i <;> cases h <;> rfl

/-- Producing commands are the writer's. -/
theorem isWriter_of_produces {w : Nat} (h : produces i = some w) : isWriter i = true := by
  cases i <;> cases h <;> rfl

/-- A consuming command that works on one context alone consumes on that one. -/
theorem ctx_of_consumes_of_on {c d : Ctx} {w : Nat} (hon : On c i) (h : consumes i = some (d, w)) : d = c := by
  cases i <;> cases h <;> cases hon <;> rfl

/-- The next states a completing reader command can leave. -/
inductive ReaderEffect (s : State) : Instr → State → Prop
  | consume {i : Instr} {c : Ctx} {w : Nat} (res : Word) (hc : consumes i = some (c, w))
      (hp : (s.ctx c).pos.toNat + w < posLimit) :
      ReaderEffect s i ((s.setCtx c ((s.ctx c).advance s.rd.len.toNat w)).respond res 0)
  | peek (src dst : Ctx) : ReaderEffect s (.rPeek src dst) ((s.setCtx dst (s.ctx src)).respond 0 0)
  | report {i : Instr} (c : Ctx) (res aux : Word)
      (hi : i = .rAt c ∨ i = .rLeftBits c ∨ i = .rLeftBytes c ∨ i = .rError c)
      (haux : (∀ d, i ≠ .rLeftBytes d) → aux = 0) : ReaderEffect s i (s.respond res aux)
  | reset (c : Ctx) : ReaderEffect s (.rReset c) ((s.setCtx c Cursor.zero).respond 0 0)
  | new (n : Word) (hn : n.toNat ≤ s.cfg.rcap) : ReaderEffect s (.rNew n) ((s.bindReader n).respond 0 0)

/-- The next states a completing writer command can leave. -/
inductive WriterEffect (s : State) : Instr → State → Prop
  | produce {i : Instr} {w : Nat} (f : Nat) (hw : produces i = some w)
      (hp : s.wr.cur.pos.toNat + w < posLimit) :
      WriterEffect s i
        (((s.setWbuf (produceBuf s w f)).setWriterCursor (s.wr.cur.advance s.wr.len.toNat w)).respond 0 0)
  | report {i : Instr} (res : Word) (hi : i = .wAt ∨ i = .wFlush ∨ i = .wError) : WriterEffect s i (s.respond res 0)
  | reset : WriterEffect s .wReset ((s.setWriterCursor Cursor.zero).respond 0 0)
  | new (n : Word) (hn : n.toNat ≤ s.cfg.wcap) : WriterEffect s (.wNew n) ((s.bindWriter n).respond 0 0)

/-- Every command that completes has the effect of a command of its unit. -/
theorem exec_effect (h : exec i s = .next t) :
    (isWriter i = false ∧ ReaderEffect s i t) ∨ (isWriter i = true ∧ WriterEffect s i t) := by
  rcases exec_next h with ⟨c, w, form, hs, h⟩ | ⟨c, bits, rfl, hp, rfl⟩ | ⟨src, dst, rfl, rfl⟩ |
    ⟨c, res, aux, hi, rfl, haux⟩ | ⟨c, rfl, rfl⟩ | ⟨n, rfl, hn, rfl⟩ | ⟨w, f, hs, h⟩ | ⟨res, hi, rfl⟩ | ⟨rfl, rfl⟩ |
    ⟨n, rfl, hn, rfl⟩
  · obtain ⟨raw, hp, -, rfl⟩ := consume_next h
    have hc := consumes_of_readShape hs
    exact .inl ⟨isWriter_of_consumes hc, .consume _ hc hp⟩
  · exact .inl ⟨rfl, .consume 0 rfl hp⟩
  · exact .inl ⟨rfl, .peek src dst⟩
  · exact .inl ⟨by rcases hi with rfl | rfl | rfl | rfl <;> rfl, .report c res aux hi haux⟩
  · exact .inl ⟨rfl, .reset c⟩
  · exact .inl ⟨rfl, .new n hn⟩
  · obtain ⟨hp, rfl⟩ := produce_next h
    have hw := produces_of_putShape hs
    exact .inr ⟨isWriter_of_produces hw, .produce f hw hp⟩
  · exact .inr ⟨by rcases hi with rfl | rfl | rfl <;> rfl, .report res hi⟩
  · exact .inr ⟨rfl, .reset⟩
  · exact .inr ⟨rfl, .new n hn⟩

theorem readerEffect (hi : isWriter i = false) (h : exec i s = .next t) : ReaderEffect s i t := by
  rcases exec_effect h with ⟨-, he⟩ | ⟨hw, -⟩
  · exact he
  · rw [hi] at hw; cases hw

theorem writerEffect (hi : isWriter i = true) (h : exec i s = .next t) : WriterEffect s i t := by
  rcases exec_effect h with ⟨hw, -⟩ | ⟨-, he⟩
  · rw [hi] at hw; cases hw
  · exact he

/-! ## The invariant: every update of the state keeps it -/

/-- R29 for the cursor `(0, None)`, over a stream of any length. -/
theorem zero_lawful (len : Word) : Lawful Cursor.zero len := by simp [Lawful]

theorem Inv.respond (h : Inv s) (res aux : Word) : Inv (s.respond res aux) := { h with }

theorem Inv.withPending (h : Inv s) (l : List HostMove) : Inv { s with pending := l } := { h with }

theorem Inv.setCtx (h : Inv s) (c : Ctx) {cur : Cursor} (hc : Lawful cur s.rd.len) : Inv (s.setCtx c cur) :=
  { h with
    reader := fun d => by
      rw [ctx_setCtx]
      split
      · exact hc
      · exact h.reader d }

theorem Inv.setWriterCursor (h : Inv s) {cur : Cursor} (hc : Lawful cur s.wr.len) : Inv (s.setWriterCursor cur) :=
  { h with writer := hc }

theorem Inv.setRbuf (h : Inv s) {m : Memory} (hm : m.wf) (hin : Within m s.cfg.rcap) : Inv (s.setRbuf m) :=
  { h with rbuf := hm, rwithin := hin }

theorem Inv.setWbuf (h : Inv s) {m : Memory} (hm : m.wf) (hin : Within m s.cfg.wcap) : Inv (s.setWbuf m) :=
  { h with wbuf := hm, wwithin := hin }

theorem Inv.bindReader (h : Inv s) {n : Word} (hn : n.toNat ≤ s.cfg.rcap) : Inv (s.bindReader n) :=
  { h with
    rlen := hn
    reader := fun c => by rw [ctx_bindReader]; exact zero_lawful _ }

theorem Inv.bindWriter (h : Inv s) {n : Word} (hn : n.toNat ≤ s.cfg.wcap) : Inv (s.bindWriter n) :=
  { h with wlen := hn, writer := zero_lawful n }

theorem Inv.hardwareReset (h : Inv s) : Inv (hardwareReset s) where
  cfg := h.cfg
  rlen := Nat.zero_le _
  wlen := Nat.zero_le _
  rbuf := .nil
  wbuf := .nil
  rwithin := by simp [Within, Reader.reset]
  wwithin := by simp [Within, Writer.reset]
  reader := fun c => by rw [ctx_hardwareReset]; exact zero_lawful _
  writer := zero_lawful _

/-- A reader command keeps the invariant. -/
theorem ReaderEffect.inv (he : ReaderEffect s i t) (h : Inv s) : Inv t := by
  cases he with
  | consume res hc hp => exact (h.setCtx _ (Cursor.advance_lawful hp (h.reader _))).respond _ _
  | peek src dst => exact (h.setCtx dst (h.reader src)).respond _ _
  | report c res aux hi haux => exact h.respond _ _
  | reset c => exact (h.setCtx c (zero_lawful _)).respond _ _
  | new n hn => exact (h.bindReader hn).respond _ _

/-- A writer command keeps the invariant. -/
theorem WriterEffect.inv (he : WriterEffect s i t) (h : Inv s) : Inv t := by
  cases he with
  | @produce _ w f hw hp =>
    have hbuf := h.setWbuf (produceBuf_wf w f h.wbuf) (produceBuf_within w f h.wlen h.wwithin)
    exact (hbuf.setWriterCursor (Cursor.advance_lawful hp h.writer)).respond _ _
  | report res hi => exact h.respond _ _
  | reset => exact (h.setWriterCursor (zero_lawful _)).respond _ _
  | new n hn => exact (h.bindWriter hn).respond _ _

theorem exec_keeps_inv (h : Inv s) (he : exec i s = .next t) : Inv t := by
  rcases exec_effect he with ⟨-, he⟩ | ⟨-, he⟩
  · exact he.inv h
  · exact he.inv h

/-- Every move of the host keeps the invariant. -/
theorem takeMove_keeps_inv {m : HostMove} (h : Inv s) (hm : takeMove m s = .next t) : Inv t := by
  rcases takeMove_next hm with ⟨cw, opd, i, -, -, he⟩ | ⟨a, b, -, ha, -, rfl⟩ | ⟨a, b, -, ha, -, rfl⟩ | ⟨-, rfl⟩
  · exact exec_keeps_inv h he
  · exact h.setRbuf (Memory.write_wf a b h.rbuf) (Memory.write_within b ha h.rwithin)
  · exact h.setWbuf (Memory.write_wf a b h.wbuf) (Memory.write_within b ha h.wwithin)
  · exact h.hardwareReset

/-- Settles O34: a step is idle or takes one move of the host, and every move keeps the invariant. -/
theorem everyStepKeepsTheInvariant : Obligations.EveryStepKeepsTheInvariant := by
  intro s t h hs
  rcases step_next hs with ⟨-, rfl⟩ | ⟨m, rest, -, hm⟩
  · exact h
  · exact takeMove_keeps_inv (h.withPending rest) hm

/-! ## What each unit leaves unchanged -/

theorem ReaderEffect.wr_eq (he : ReaderEffect s i t) : t.wr = s.wr := by
  cases he <;> rfl

theorem ReaderEffect.rbuf_eq (he : ReaderEffect s i t) : t.rd.buf = s.rd.buf := by
  cases he <;> rfl

theorem ReaderEffect.rlen_eq (he : ReaderEffect s i t) (hn : ∀ n, i ≠ .rNew n) : t.rd.len = s.rd.len := by
  cases he with
  | new n => exact absurd rfl (hn n)
  | _ => rfl

/-- A reader command on one context leaves the others. -/
theorem ReaderEffect.ctx_eq_of_on {c d : Ctx} (he : ReaderEffect s i t) (hon : On c i) (hd : d ≠ c) :
    t.ctx d = s.ctx d := by
  cases he with
  | consume res hc hp =>
    obtain rfl := ctx_of_consumes_of_on hon hc
    exact ctx_setCtx_ne s _ hd
  | report c res aux hi haux => rfl
  | reset c' =>
    cases hon
    exact ctx_setCtx_ne s _ hd
  | peek src dst => cases hon
  | new n => cases hon

/-- R.PEEK leaves every context but its destination. -/
theorem ReaderEffect.ctx_eq_of_peek {src dst d : Ctx} (he : ReaderEffect s (.rPeek src dst) t) (hd : d ≠ dst) :
    t.ctx d = s.ctx d := by
  cases he with
  | peek => exact ctx_setCtx_ne s _ hd
  | consume res hc hp => cases hc
  | report => rfl

/-- A report leaves the whole reader. -/
theorem ReaderEffect.rd_eq_of_report {c : Ctx} (he : ReaderEffect s i t)
    (hi : i = .rAt c ∨ i = .rLeftBits c ∨ i = .rLeftBytes c ∨ i = .rError c) : t.rd = s.rd := by
  rcases hi with rfl | rfl | rfl | rfl <;>
    cases he with
    | consume res hc hp => cases hc
    | report => rfl

/-- A reader command answers once, with AUX 0 but for R.LEFTBYTES. -/
theorem ReaderEffect.response (he : ReaderEffect s i t) :
    ∃ x, t.responses = s.responses ++ [x] ∧ ((∀ c, i ≠ .rLeftBytes c) → x.aux = 0) := by
  cases he with
  | report c res aux hi haux => exact ⟨_, rfl, haux⟩
  | _ => exact ⟨_, rfl, fun _ => rfl⟩

/-- Settles O36, by what a reader command can do. -/
theorem readerCommandFrame : Obligations.ReaderCommandFrame := by
  intro s t i hi h
  have he := readerEffect hi h
  obtain ⟨hcfg, hepoch, hpending, -⟩ := exec_frame h
  refine ⟨he.wr_eq, he.rbuf_eq, hcfg, hepoch, hpending, he.rlen_eq, fun c d => he.ctx_eq_of_on, ?_,
    fun c => he.rd_eq_of_report, he.response⟩
  rintro src dst d rfl
  exact he.ctx_eq_of_peek

theorem WriterEffect.rd_eq (he : WriterEffect s i t) : t.rd = s.rd := by
  cases he <;> rfl

theorem WriterEffect.wlen_eq (he : WriterEffect s i t) (hn : ∀ n, i ≠ .wNew n) : t.wr.len = s.wr.len := by
  cases he with
  | new n => exact absurd rfl (hn n)
  | _ => rfl

/-- Only a producing command changes WBUF. -/
theorem WriterEffect.wbuf_eq (he : WriterEffect s i t) (hp : produces i = none) : t.wr.buf = s.wr.buf := by
  cases he with
  | produce f hw => rw [hw] at hp; cases hp
  | _ => rfl

/-- A report leaves the whole writer. -/
theorem WriterEffect.wr_eq_of_report (he : WriterEffect s i t) (hi : i = .wAt ∨ i = .wFlush ∨ i = .wError) :
    t.wr = s.wr := by
  rcases hi with rfl | rfl | rfl <;>
    cases he with
    | produce f hw => cases hw
    | report => rfl

/-- A writer command answers once, with AUX 0. -/
theorem WriterEffect.response (he : WriterEffect s i t) : ∃ x, t.responses = s.responses ++ [x] ∧ x.aux = 0 := by
  cases he <;> exact ⟨_, rfl, rfl⟩

/-- Settles O37, by what a writer command can do. -/
theorem writerCommandFrame : Obligations.WriterCommandFrame := by
  intro s t i hi h
  have he := writerEffect hi h
  obtain ⟨hcfg, hepoch, hpending, -⟩ := exec_frame h
  exact ⟨he.rd_eq, hcfg, hepoch, hpending, he.wlen_eq, he.wbuf_eq, he.wr_eq_of_report, he.response⟩

/-! ## Positions -/

/-- A reader command decreases no context's position, but for R.RESET of it, R.NEW and an R.PEEK into it. -/
theorem ReaderEffect.pos_le {c : Ctx} (he : ReaderEffect s i t) (hreset : i ≠ .rReset c) (hnew : ∀ n, i ≠ .rNew n)
    (hpeek : ∀ src, i ≠ .rPeek src c) : (s.ctx c).pos.toNat ≤ (t.ctx c).pos.toNat := by
  cases he with
  | @consume _ d w res hc hp =>
    rw [ctx_respond, ctx_setCtx]
    split
    · subst d
      rw [Cursor.advance_pos_toNat _ hp]
      exact Nat.le_add_right _ _
    · exact le_rfl
  | peek src dst =>
    have hd : c ≠ dst := fun h => hpeek src (h ▸ rfl)
    rw [ctx_respond, ctx_setCtx_ne s _ hd]
  | report => exact le_rfl
  | reset d =>
    have hd : c ≠ d := fun h => hreset (h ▸ rfl)
    rw [ctx_respond, ctx_setCtx_ne s _ hd]
  | new n => exact absurd rfl (hnew n)

/-- A writer command does not decrease the writer's position, but for W.RESET and W.NEW. -/
theorem WriterEffect.pos_le (he : WriterEffect s i t) (hreset : i ≠ .wReset) (hnew : ∀ n, i ≠ .wNew n) :
    s.wr.cur.pos.toNat ≤ t.wr.cur.pos.toNat := by
  cases he with
  | produce f hw hp =>
    rw [respond_wr, setWriterCursor_cur, Cursor.advance_pos_toNat _ hp]
    exact Nat.le_add_right _ _
  | report => exact le_rfl
  | reset => exact absurd rfl hreset
  | new n => exact absurd rfl (hnew n)

/-- Settles O32: each unit's positions grow or stay, and the other unit is left alone. -/
theorem positionsNeverDecrease : Obligations.PositionsNeverDecrease := by
  intro s t i h
  rcases exec_effect h with ⟨-, he⟩ | ⟨-, he⟩
  · refine ⟨fun c => he.pos_le, fun _ _ => ?_⟩
    rw [he.wr_eq]
  · refine ⟨fun c _ _ _ => ?_, he.pos_le⟩
    rw [State.ctx, State.ctx, he.rd_eq]

/-! ## Flags -/

/-- Two states that differ in their flags at most. -/
structure SameButFlags (s s' : State) : Prop where
  cfg : s'.cfg = s.cfg
  epoch : s'.epoch = s.epoch
  responses : s'.responses = s.responses
  rlen : s'.rd.len = s.rd.len
  rbuf : s'.rd.buf = s.rd.buf
  rpos : ∀ c, (s'.ctx c).pos = (s.ctx c).pos
  wlen : s'.wr.len = s.wr.len
  wbuf : s'.wr.buf = s.wr.buf
  wpos : s'.wr.cur.pos = s.wr.cur.pos

section
variable {s' : State}

theorem SameButFlags.respond (h : SameButFlags s s') (res aux : Word) :
    SameButFlags (s.respond res aux) (s'.respond res aux) :=
  { h with responses := by rw [respond_responses, respond_responses, h.responses] }

theorem SameButFlags.setCtx (h : SameButFlags s s') (c : Ctx) {cur cur' : Cursor} (hp : cur'.pos = cur.pos) :
    SameButFlags (s.setCtx c cur) (s'.setCtx c cur') :=
  { h with
    rpos := fun d => by
      rw [ctx_setCtx, ctx_setCtx]
      split
      · exact hp
      · exact h.rpos d }

theorem SameButFlags.setWbuf (h : SameButFlags s s') (m : Memory) : SameButFlags (s.setWbuf m) (s'.setWbuf m) :=
  { h with wbuf := rfl }

theorem SameButFlags.setWriterCursor (h : SameButFlags s s') {cur cur' : Cursor} (hp : cur'.pos = cur.pos) :
    SameButFlags (s.setWriterCursor cur) (s'.setWriterCursor cur') :=
  { h with wpos := hp }

theorem SameButFlags.bindReader (h : SameButFlags s s') (n : Word) :
    SameButFlags (s.bindReader n) (s'.bindReader n) :=
  { h with
    rlen := rfl
    rpos := fun c => by rw [ctx_bindReader, ctx_bindReader] }

theorem SameButFlags.bindWriter (h : SameButFlags s s') (n : Word) :
    SameButFlags (s.bindWriter n) (s'.bindWriter n) :=
  { h with wlen := rfl, wpos := rfl }

/-- Where an advance leads does not depend on the flag. -/
theorem advance_pos_congr {cur cur' : Cursor} (hp : cur'.pos = cur.pos) (len w : Nat) :
    (cur'.advance len w).pos = (cur.advance len w).pos := by
  rw [Cursor.advance_pos, Cursor.advance_pos, hp]

/-- What a production stores does not depend on a flag. -/
theorem SameButFlags.produceBuf_eq (h : SameButFlags s s') (w f : Nat) : produceBuf s' w f = produceBuf s w f := by
  simp only [produceBuf, h.cfg, h.epoch, h.wlen, h.wbuf, h.wpos]

/-- Consumption does not depend on a flag. -/
theorem SameButFlags.consume (h : SameButFlags s s') {c : Ctx} {w : Nat} {form : Nat → Word}
    (he : consume c w form s = .next t) : ∃ t', consume c w form s' = .next t' ∧ SameButFlags t t' := by
  obtain ⟨raw, hp, hraw, rfl⟩ := consume_next he
  rw [← h.rpos c] at hp
  rw [← h.rbuf, ← h.rlen, ← h.rpos c] at hraw
  refine ⟨_, consume_ok hp hraw, ?_⟩
  rw [h.rlen]
  exact (h.setCtx c (advance_pos_congr (h.rpos c) _ _)).respond _ _

/-- Production does not depend on a flag. -/
theorem SameButFlags.produce (h : SameButFlags s s') {w f : Nat} (he : produce w f s = .next t) :
    ∃ t', produce w f s' = .next t' ∧ SameButFlags t t' := by
  obtain ⟨hp, rfl⟩ := produce_next he
  rw [← h.wpos] at hp
  refine ⟨_, produce_ok hp, ?_⟩
  rw [h.produceBuf_eq, h.wlen]
  exact ((h.setWbuf _).setWriterCursor (advance_pos_congr h.wpos _ _)).respond 0 0

/-- States that differ in their flags at most stay so under every command but R.ERROR, W.ERROR and W.FLUSH. -/
theorem SameButFlags.exec (h : SameButFlags s s') (he : exec i s = .next t) (hr : ∀ c, i ≠ .rError c)
    (hw : i ≠ .wError) (hf : i ≠ .wFlush) : ∃ t', exec i s' = .next t' ∧ SameButFlags t t' := by
  have hwf := wf_of_exec_next he
  rcases exec_next he with ⟨c, w, form, hs, hc⟩ | ⟨c, bits, rfl, hp, rfl⟩ | ⟨src, dst, rfl, rfl⟩ |
    ⟨c, -, -, hi, -, -⟩ | ⟨c, rfl, rfl⟩ | ⟨n, rfl, hn, rfl⟩ | ⟨w, f, hs, hc⟩ | ⟨-, hi, -⟩ | ⟨rfl, rfl⟩ |
    ⟨n, rfl, hn, rfl⟩
  · rw [exec_read hs hwf]
    exact h.consume hc
  · rw [← h.rpos c] at hp
    refine ⟨_, requirePosition_ok hp _, ?_⟩
    rw [h.rlen]
    exact (h.setCtx c (advance_pos_congr (h.rpos c) _ _)).respond 0 0
  · exact ⟨_, rfl, (h.setCtx dst (h.rpos src)).respond 0 0⟩
  · rcases hi with rfl | rfl | rfl | hi
    on_goal 4 => exact absurd hi (hr c)
    all_goals
      cases he
      refine ⟨_, rfl, ?_⟩
      simp only [h.rpos c, h.rlen]
      exact h.respond _ _
  · exact ⟨_, rfl, (h.setCtx c rfl).respond 0 0⟩
  · rw [← h.cfg] at hn
    exact ⟨_, requireCapacity_ok hn _, (h.bindReader n).respond 0 0⟩
  · rw [exec_put hs hwf]
    exact h.produce hc
  · rcases hi with rfl | rfl | rfl
    · cases he
      refine ⟨_, rfl, ?_⟩
      rw [h.wpos]
      exact h.respond _ _
    · exact absurd rfl hf
    · exact absurd rfl hw
  · exact ⟨_, rfl, (h.setWriterCursor rfl).respond 0 0⟩
  · rw [← h.cfg] at hn
    exact ⟨_, requireCapacity_ok hn _, (h.bindWriter n).respond 0 0⟩

end

/-- Settles O33: a state with other flags runs alike, flags apart. -/
theorem onlyReportsReadTheFlags : Obligations.OnlyReportsReadTheFlags := by
  intro s t i e f s' he hr hw hf hs hctx
  have h : SameButFlags s s' :=
    { cfg := congrArg (·.cfg) hs
      epoch := congrArg (·.epoch) hs
      responses := congrArg (·.responses) hs
      rlen := congrArg (·.rd.len) hs
      rbuf := congrArg (·.rd.buf) hs
      rpos := fun c => congrArg (·.pos) (hctx c)
      wlen := congrArg (·.wr.len) hs
      wbuf := congrArg (·.wr.buf) hs
      wpos := congrArg (·.wr.cur.pos) hs }
  obtain ⟨t', ht', h'⟩ := h.exec he hr hw hf
  exact ⟨t', ht', h'.responses, h'.rlen, h'.rbuf, h'.rpos, h'.wlen, h'.wbuf, h'.wpos⟩

/-! ## The two units -/

theorem onNext_requirePosition (g : State → State) (pos : Word) (n : Nat) (r : Result) :
    onNext g (requirePosition pos n r) = requirePosition pos n (onNext g r) := by
  unfold requirePosition
  split <;> rfl

theorem onNext_requireCapacity (g : State → State) (len : Word) (cap : Nat) (r : Result) :
    onNext g (requireCapacity len cap r) = requireCapacity len cap (onNext g r) := by
  unfold requireCapacity
  split <;> rfl

/-- Consumption neither reads nor changes the writer. -/
theorem consume_withWriter (c : Ctx) (w : Nat) (form : Nat → Word) (s : State) (wr : Writer) :
    consume c w form { s with wr := wr } = onNext (fun t => { t with wr := wr }) (consume c w form s) := by
  by_cases hp : (s.ctx c).pos.toNat + w < posLimit
  · cases hraw : extract s.rd.buf s.rd.len.toNat (s.ctx c).pos.toNat w with
    | none => rw [consume_fault hp hraw]; exact consume_fault hp hraw
    | some raw => rw [consume_ok hp hraw]; exact consume_ok hp hraw
  · rw [consume_refused hp]; exact consume_refused hp

/-- A reader command has the same outcome whatever the writer, and keeps it (R32). -/
theorem exec_withWriter (hi : isWriter i = false) (s : State) (wr : Writer) :
    exec i { s with wr := wr } = onNext (fun t => { t with wr := wr }) (exec i s) := by
  cases hw : i.wf with
  | false => rw [exec_ill_formed hw, exec_ill_formed hw]; rfl
  | true =>
    cases hr : readShape i with
    | some x =>
      obtain ⟨c, w, form⟩ := x
      rw [exec_read hr hw, exec_read hr hw, consume_withWriter]
    | none =>
      cases i <;> cases hi <;> cases hr
      case rSkip.refl.refl => rw [exec, exec, execRSkip, execRSkip, onNext_requirePosition]; rfl
      case rNew.refl.refl => rw [exec, exec, execRNew, execRNew, onNext_requireCapacity]; rfl
      all_goals rfl

/-- A writer command has the same outcome whatever the reader, and keeps it (R32). -/
theorem exec_withReader (hi : isWriter i = true) (s : State) (rd : Reader) :
    exec i { s with rd := rd } = onNext (fun t => { t with rd := rd }) (exec i s) := by
  cases hw : i.wf with
  | false => rw [exec_ill_formed hw, exec_ill_formed hw]; rfl
  | true =>
    cases hp : putShape i with
    | some x =>
      obtain ⟨w, f⟩ := x
      rw [exec_put hp hw, exec_put hp hw, produce, produce, onNext_requirePosition]
      rfl
    | none =>
      cases i <;> cases hi <;> cases hp
      case wNew.refl.refl => rw [exec, exec, execWNew, execWNew, onNext_requireCapacity]; rfl
      all_goals rfl

/-- A reader command and a writer command that complete in one order complete in the other, with the same responses. -/
theorem exec_commute {a b : State} {r w : Instr} (hr : isWriter r = false) (hw : isWriter w = true)
    (ha : exec r s = .next a) (hb : exec w a = .next b) :
    ∃ (a' b' : State) (x y : Response), exec w s = .next a' ∧ exec r a' = .next b' ∧
      b' = { b with responses := s.responses ++ [y, x] } ∧ b.responses = s.responses ++ [x, y] ∧
      a.responses = s.responses ++ [x] ∧ a'.responses = s.responses ++ [y] := by
  obtain ⟨x, hax, hrun⟩ := reader_local hr ha
  obtain ⟨y, hby, wrun⟩ := writer_local hw hb
  have hcfg : s.cfg = a.cfg := (congrArg State.cfg hax).symm
  have hwr : s.wr = a.wr := (congrArg State.wr hax).symm
  have hepoch : s.epoch = a.epoch := (congrArg State.epoch hax).symm
  have hresp : a.responses = s.responses ++ [x] := congrArg State.responses hax
  refine ⟨_, _, x, y, wrun s hwr hcfg hepoch, hrun _ rfl rfl, ?_, ?_, hresp, rfl⟩
  · rw [hby, hax]
    simp
  · rw [hby, hresp]
    simp

/-- Settles O45: each unit runs alike whatever the other holds, and so their commands commute. -/
theorem unitsShareNothingAndCommute : Obligations.UnitsShareNothingAndCommute :=
  ⟨fun s _ wr hi => exec_withWriter hi s wr, fun s _ rd hi => exec_withReader hi s rd,
    fun _ _ _ _ _ => exec_commute⟩

end Sys2Proof
end

section
/-! PROOFS of the statements about the buffer memories (20_memory.md): what the writer keeps of WBUF over a sequence of
commands, what a command reads of RBUF, and what it takes to replay a sequence. -/

namespace Sys2Proof

open Sys2Proof.Machine Sys2Proof.Spec

variable {s t : State} {i : Instr} {l : List Instr}

/-- A sequence completes when its first command does and the rest completes after it. -/
theorem execAll_cons_eq_next : execAll (i :: l) s = .next t ↔ ∃ u, exec i s = .next u ∧ execAll l u = .next t := by
  cases h : exec i s <;> simp [execAll, h]

/-! ## Replay -/

/-- A sequence of reader commands depends on the reader and the parameters, and changes the reader and the transcript
alone (10_state.md R32). -/
theorem readerAll_local (hi : ∀ i ∈ l, isWriter i = false) (h : execAll l s = .next t) :
    ∃ rs, t = { s with rd := t.rd, responses := s.responses ++ rs } ∧ ∀ u : State, u.rd = s.rd → u.cfg = s.cfg →
      execAll l u = .next { u with rd := t.rd, responses := u.responses ++ rs } := by
  induction l generalizing s with
  | nil =>
    cases h
    refine ⟨[], by simp, fun u hrd _ => ?_⟩
    simp [execAll, ← hrd]
  | cons i l ih =>
    obtain ⟨hhead, htail⟩ := List.forall_mem_cons.1 hi
    obtain ⟨v, hv, hl⟩ := execAll_cons_eq_next.1 h
    obtain ⟨x, hvx, hrun⟩ := reader_local hhead hv
    obtain ⟨rs, htrs, hrest⟩ := ih htail hl
    refine ⟨x :: rs, ?_, fun u hrd hcfg => execAll_cons_eq_next.2 ⟨_, hrun u hrd hcfg, ?_⟩⟩
    · rw [htrs, hvx]
      simp
    · have hvcfg : v.cfg = s.cfg := congrArg (·.cfg) hvx
      have hstep := hrest { u with rd := v.rd, responses := u.responses ++ [x] } rfl (hcfg.trans hvcfg.symm)
      simpa using hstep

/-- A command on one context alone is a reader command. -/
theorem isWriter_of_on {c : Ctx} (hon : On c i) : isWriter i = false := by
  cases i <;> cases hon <;> rfl

/-- A response leaves the reader, and so every later update of it. -/
theorem respond_setCtx_rd (s : State) (res aux : Word) (c : Ctx) (cur : Cursor) :
    ((s.respond res aux).setCtx c cur).rd = (s.setCtx c cur).rd := rfl

/-- A command on one context changes nothing of the reader that a later write of that context does not cover. -/
theorem ReaderEffect.setCtx_rd_eq_of_on {c : Ctx} (he : ReaderEffect s i t) (hon : On c i) (cur : Cursor) :
    (t.setCtx c cur).rd = (s.setCtx c cur).rd := by
  cases he with
  | consume res hc hp =>
    obtain rfl := ctx_of_consumes_of_on hon hc
    rw [respond_setCtx_rd, setCtx_setCtx]
  | report => rfl
  | reset d =>
    cases hon
    rw [respond_setCtx_rd, setCtx_setCtx]
  | peek => cases hon
  | new => cases hon

/-- Nor does a sequence of such commands. -/
theorem execAll_setCtx_rd_eq_of_on {c : Ctx} (hon : ∀ i ∈ l, On c i) (h : execAll l s = .next t) (cur : Cursor) :
    (t.setCtx c cur).rd = (s.setCtx c cur).rd := by
  induction l generalizing s with
  | nil => cases h; rfl
  | cons i l ih =>
    obtain ⟨hhead, htail⟩ := List.forall_mem_cons.1 hon
    obtain ⟨u, hu, hl⟩ := execAll_cons_eq_next.1 h
    have he := readerEffect (isWriter_of_on hhead) hu
    exact (ih htail hl).trans (he.setCtx_rd_eq_of_on hhead cur)

/-- Settles O44: R.RESET brings back the reader the sequence began with, and the sequence depends on nothing else that
changes. -/
theorem replayAfterResetIsTheSame : Obligations.ReplayAfterResetIsTheSame := by
  intro s a b c l hs hon ha hb
  obtain ⟨rs, has, hrun⟩ := readerAll_local (fun i hi => isWriter_of_on (hon i hi)) ha
  cases hb
  have hrd : (a.setCtx c Cursor.zero).rd = s.rd := by
    have hzero : Cursor.zero = s.ctx c := hs.symm
    rw [execAll_setCtx_rd_eq_of_on hon ha, hzero, setCtx_ctx_self]
  have hcfg : a.cfg = s.cfg := congrArg (·.cfg) has
  exact ⟨_, rs, hrun _ hrd hcfg, rfl, congrArg (·.responses) has, rfl⟩

/-! ## RBUF past the stream -/

section
variable {m : Memory}

/-- Consumption reads RBUF below `R.len` alone, whatever its outcome. -/
theorem consume_setRbuf (hm : ∀ a, a < s.rd.len.toNat → m.read a = s.rd.buf.read a) (c : Ctx) (w : Nat)
    (form : Nat → Word) : consume c w form (s.setRbuf m) = onNext (fun t => t.setRbuf m) (consume c w form s) := by
  have hfield : extract m s.rd.len.toNat (s.ctx c).pos.toNat w =
      extract s.rd.buf s.rd.len.toNat (s.ctx c).pos.toNat w :=
    extract_congr fun j _ hj => hm _ (by omega)
  by_cases hp : (s.ctx c).pos.toNat + w < posLimit
  · cases hraw : extract s.rd.buf s.rd.len.toNat (s.ctx c).pos.toNat w with
    | none => rw [consume_fault hp hraw]; exact consume_fault hp (hfield.trans hraw)
    | some raw => rw [consume_ok hp hraw]; exact consume_ok hp (hfield.trans hraw)
  · rw [consume_refused hp]; exact consume_refused hp

/-- A reader command has the same outcome whatever RBUF holds at or past `R.len`, and keeps it (R41). -/
theorem reader_setRbuf (hm : ∀ a, a < s.rd.len.toNat → m.read a = s.rd.buf.read a) (hi : isWriter i = false) :
    exec i (s.setRbuf m) = onNext (fun t => t.setRbuf m) (exec i s) := by
  cases hw : i.wf with
  | false => rw [exec_ill_formed hw, exec_ill_formed hw]; rfl
  | true =>
    cases hr : readShape i with
    | some x =>
      obtain ⟨c, w, form⟩ := x
      rw [exec_read hr hw, exec_read hr hw, consume_setRbuf hm]
    | none =>
      cases i <;> cases hi <;> cases hr
      case rSkip.refl.refl => rw [exec, exec, execRSkip, execRSkip, onNext_requirePosition]; rfl
      case rNew.refl.refl => rw [exec, exec, execRNew, execRNew, onNext_requireCapacity]; rfl
      all_goals rfl

end

/-- Settles O40: a reader command reads RBUF below `R.len` alone, a writer command nothing of the reader. -/
theorem bytesPastTheStreamNeverRead : Obligations.BytesPastTheStreamNeverRead := by
  intro s t i m hm h
  rcases exec_effect h with ⟨hi, -⟩ | ⟨hi, he⟩
  · have hrun := reader_setRbuf hm hi
    rw [h] at hrun
    exact hrun
  · rw [exec_withReader hi, h, ← he.rd_eq]
    rfl

/-! ## WBUF before the writer's position -/

/-- What the host sees of WBUF is the model's stream bit. -/
theorem hostBit_eq_wbit (s : State) (k : Nat) : hostBit s k = wbit s.epoch s.wr.buf k := rfl

/-- A writer command stores nothing before the position it starts at. -/
theorem WriterEffect.hostBit_eq (he : WriterEffect s i t) {k : Nat} (hk : k < s.wr.cur.pos.toNat) :
    hostBit t k = hostBit s k := by
  cases he with
  | @produce _ w f hw hp => exact wbit_produceBuf_outside s w f (.inl hk)
  | _ => rfl

/-- Nor does any command. -/
theorem exec_hostBit_eq (h : exec i s = .next t) {k : Nat} (hk : k < s.wr.cur.pos.toNat) :
    hostBit t k = hostBit s k := by
  rcases exec_effect h with ⟨-, he⟩ | ⟨-, he⟩
  · obtain ⟨-, hepoch, -⟩ := exec_frame h
    rw [hostBit_eq_wbit, hostBit_eq_wbit, hepoch, he.wr_eq]
  · exact he.hostBit_eq hk

/-- Settles O39, by induction over the commands: each leaves the bits before its position, and the position does not go
back. -/
theorem earlierBitsStay : Obligations.EarlierBitsStay := by
  intro s t l hl h k hk
  induction l generalizing s with
  | nil => cases h; rfl
  | cons i l ih =>
    obtain ⟨⟨hreset, hnew⟩, htail⟩ := List.forall_mem_cons.1 hl
    obtain ⟨u, hu, hrest⟩ := execAll_cons_eq_next.1 h
    obtain ⟨-, hpos⟩ := positionsNeverDecrease s u i hu
    have hku : k < u.wr.cur.pos.toNat := hk.trans_le (hpos hreset hnew)
    exact (ih u htail hrest hku).trans (exec_hostBit_eq hu hk)

end Sys2Proof
end

section
/-! PROOFS of the statements about the encoding (30_encoding.md). A command's row is its pair of columns match and mask
(`Laws.row`); a word decodes to a command exactly when it meets the command's row and the command's operands are the
word's fields. The rest of the file follows from the two directions of that. -/

namespace Sys2Proof

open Sys2Proof.Machine Sys2Proof.Spec Sys2Proof.Laws

variable {s : State} {i x : Instr} {cw v : CmdWord} {opd : Word}

/-! ## What a row says of a word -/

/-- The ten low bits of a match column are 0. -/
theorem row_match_eq (i : Instr) : (row i).1 = BitVec.ofNat 16 ((row i).1.toNat / 1024 * 1024 + 0) := by
  cases i <;> simp [row]

/-- Two words agree in their six high bits when they agree in U and OP. -/
theorem unit_op_eq_iff (cw v : CmdWord) :
    cwUnit cw * 32 + cwOp cw = v.toNat / 1024 ↔ cwUnit cw = cwUnit v ∧ cwOp cw = cwOp v := by
  have := v.isLt
  have := cwOp_lt cw
  unfold cwUnit cwOp at *
  omega

/-- A reader command without a width. -/
theorem row_iff_FCFF (hm : row i = (v, 0xFCFF)) : cw &&& (row i).2 = (row i).1 ↔
    (cwUnit cw = cwUnit v ∧ cwOp cw = cwOp v) ∧ cwZ cw = 0 ∧ cwWidth cw = 0 := by
  have hv := row_match_eq i
  rw [hm] at hv ⊢
  rw [mask_FCFF cw (by omega) hv, unit_op_eq_iff]

/-- R.PEEK. -/
theorem row_iff_FCFC (hm : row i = (v, 0xFCFC)) : cw &&& (row i).2 = (row i).1 ↔
    (cwUnit cw = cwUnit v ∧ cwOp cw = cwOp v) ∧ cwZ cw = 0 ∧ cwWidth cw / 4 = 0 := by
  have hv := row_match_eq i
  rw [hm] at hv ⊢
  rw [mask_FCFC cw (by omega) hv, unit_op_eq_iff]

/-- A reader command with a width. -/
theorem row_iff_FC80 (hm : row i = (v, 0xFC80)) : cw &&& (row i).2 = (row i).1 ↔
    (cwUnit cw = cwUnit v ∧ cwOp cw = cwOp v) ∧ cwZ cw = 0 := by
  have hv := row_match_eq i
  rw [hm] at hv ⊢
  rw [mask_FC80 cw (by omega) hv, unit_op_eq_iff]

/-- R.NEW, or a writer command without a width. -/
theorem row_iff_FFFF (hm : row i = (v, 0xFFFF)) : cw &&& (row i).2 = (row i).1 ↔
    (cwUnit cw = cwUnit v ∧ cwOp cw = cwOp v) ∧ (cwCtx cw).val = 0 ∧ cwZ cw = 0 ∧ cwWidth cw = 0 := by
  have hv := row_match_eq i
  rw [hm] at hv ⊢
  rw [mask_FFFF cw (by omega) hv, unit_op_eq_iff]

/-- A writer command with a width. -/
theorem row_iff_FF80 (hm : row i = (v, 0xFF80)) : cw &&& (row i).2 = (row i).1 ↔
    (cwUnit cw = cwUnit v ∧ cwOp cw = cwOp v) ∧ (cwCtx cw).val = 0 ∧ cwZ cw = 0 := by
  have hv := row_match_eq i
  rw [hm] at hv ⊢
  rw [mask_FF80 cw (by omega) hv, unit_op_eq_iff]

/-! ## When the decoder's parts answer a command -/

theorem decode_reader (hu : cwUnit cw = 0) : decode cw opd = decodeReader cw opd := if_pos hu

theorem decode_writer (hu : cwUnit cw = 1) : decode cw opd = decodeWriter cw opd := if_neg (by rw [hu]; decide)

theorem withWidth_eq_ok : withWidth cw x = .ok i ↔ cwZ cw = 0 ∧ x = i := by
  unfold withWidth; split_ifs <;> simp_all

theorem withoutWidth_eq_ok : withoutWidth cw x = .ok i ↔ cwZ cw = 0 ∧ cwWidth cw = 0 ∧ x = i := by
  unfold withoutWidth; split_ifs <;> simp_all

theorem peekBits_eq_ok : peekBits cw x = .ok i ↔ cwZ cw = 0 ∧ cwWidth cw / 4 = 0 ∧ x = i := by
  unfold peekBits; split_ifs <;> simp_all

theorem noCtx_eq_ok {r : Except IllegalEncoding Instr} :
    noCtx cw r = .ok i ↔ (cwCtx cw).val = 0 ∧ r = .ok i := by
  unfold noCtx; split_ifs <;> simp_all

/-! ## A word of a command's row decodes to it -/

/-- The operands of a command are the fields of the word `cw` and the operand `opd` (R65, R66). -/
def Operands (cw : CmdWord) (opd : Word) : Instr → Prop
  | .rBit c | .rAt c | .rByte c | .rLe16 c | .rLe32 c | .rLe64 c | .rBe16 c | .rBe32 c | .rBe64 c | .rLeftBits c
  | .rLeftBytes c | .rReset c | .rError c => c = cwCtx cw
  | .rSkip c bits => (c, bits) = (cwCtx cw, opd)
  | .rPeek src dst => (src, dst) = (cwCtx cw, cwDst cw)
  | .rUint8 c w | .rUint16 c w | .rUint32 c w | .rUint64 c w | .rInt8 c w | .rInt16 c w | .rInt32 c w | .rInt64 c w =>
    (c, w) = (cwCtx cw, cwWidth cw)
  | .wPutU8 w value | .wPutU16 w value | .wPutU32 w value | .wPutU64 w value => (w, value) = (cwWidth cw, opd)
  | .rNew n | .wNew n | .wPutByte n | .wPutLe16 n | .wPutLe32 n | .wPutLe64 n | .wPutBe16 n | .wPutBe32 n
  | .wPutBe64 n => n = opd
  | .wAt | .wFlush | .wReset | .wError => True

/-- By the five masks: the row's unit and operation lead the decoder to the command, and the bits the mask adds are those
the decoder checks. -/
theorem decode_of_row (h : cw &&& (row i).2 = (row i).1) (ho : Operands cw opd i) : decode cw opd = .ok i := by
  cases i <;> cases ho
  case rPeek =>
    obtain ⟨⟨hu, hop⟩, hz, hw⟩ := (row_iff_FCFC rfl).1 h
    rw [decode_reader hu, decodeReader, hop]
    exact peekBits_eq_ok.2 ⟨hz, hw, rfl⟩
  case rUint8 | rUint16 | rUint32 | rUint64 | rInt8 | rInt16 | rInt32 | rInt64 =>
    obtain ⟨⟨hu, hop⟩, hz⟩ := (row_iff_FC80 rfl).1 h
    rw [decode_reader hu, decodeReader, hop]
    exact withWidth_eq_ok.2 ⟨hz, rfl⟩
  case wPutU8 | wPutU16 | wPutU32 | wPutU64 =>
    obtain ⟨⟨hu, hop⟩, hc, hz⟩ := (row_iff_FF80 rfl).1 h
    rw [decode_writer hu, decodeWriter, hop]
    exact noCtx_eq_ok.2 ⟨hc, withWidth_eq_ok.2 ⟨hz, rfl⟩⟩
  case rNew =>
    obtain ⟨⟨hu, hop⟩, hc, hz, hw⟩ := (row_iff_FFFF rfl).1 h
    rw [decode_reader hu, decodeReader, hop]
    exact noCtx_eq_ok.2 ⟨hc, withoutWidth_eq_ok.2 ⟨hz, hw, rfl⟩⟩
  case wAt | wPutByte | wPutLe16 | wPutLe32 | wPutLe64 | wPutBe16 | wPutBe32 | wPutBe64 | wFlush | wReset | wError
      | wNew =>
    obtain ⟨⟨hu, hop⟩, hc, hz, hw⟩ := (row_iff_FFFF rfl).1 h
    rw [decode_writer hu, decodeWriter, hop]
    exact noCtx_eq_ok.2 ⟨hc, withoutWidth_eq_ok.2 ⟨hz, hw, rfl⟩⟩
  all_goals
    obtain ⟨⟨hu, hop⟩, hz, hw⟩ := (row_iff_FCFF rfl).1 h
    rw [decode_reader hu, decodeReader, hop]
    exact withoutWidth_eq_ok.2 ⟨hz, hw, rfl⟩

/-! ## A word that decodes is of its command's row, and its encoding -/

/-- The word `cw` is of the command's row and the command encodes to it, with the operand `opd` where it uses one. -/
structure Spells (cw : CmdWord) (opd : Word) (i : Instr) : Prop where
  row : cw &&& (row i).2 = (row i).1
  encode : encode i = (cw, if usesOpd i then opd else 0)

theorem withoutWidth_spells (h : withoutWidth cw x = .ok i) (hm : row x = (v, 0xFCFF))
    (hu : cwUnit cw = cwUnit v) (hop : cwOp cw = cwOp v)
    (he : encode x = (packCw (cwUnit v) (cwOp v) (cwCtx cw).val 0, if usesOpd x then opd else 0)) :
    Spells cw opd i := by
  obtain ⟨hz, hw, rfl⟩ := withoutWidth_eq_ok.1 h
  have hpack := packCw_fields hz
  rw [hu, hop, hw] at hpack
  exact ⟨(row_iff_FCFF hm).2 ⟨⟨hu, hop⟩, hz, hw⟩, by rw [he, hpack]⟩

theorem withWidth_spells (h : withWidth cw x = .ok i) (hm : row x = (v, 0xFC80))
    (hu : cwUnit cw = cwUnit v) (hop : cwOp cw = cwOp v)
    (he : encode x = (packCw (cwUnit v) (cwOp v) (cwCtx cw).val (cwWidth cw), if usesOpd x then opd else 0)) :
    Spells cw opd i := by
  obtain ⟨hz, rfl⟩ := withWidth_eq_ok.1 h
  have hpack := packCw_fields hz
  rw [hu, hop] at hpack
  exact ⟨(row_iff_FC80 hm).2 ⟨⟨hu, hop⟩, hz⟩, by rw [he, hpack]⟩

theorem peekBits_spells (h : peekBits cw x = .ok i) (hm : row x = (v, 0xFCFC))
    (hu : cwUnit cw = cwUnit v) (hop : cwOp cw = cwOp v)
    (he : encode x = (packCw (cwUnit v) (cwOp v) (cwCtx cw).val (cwDst cw).val, if usesOpd x then opd else 0)) :
    Spells cw opd i := by
  obtain ⟨hz, hw, rfl⟩ := peekBits_eq_ok.1 h
  have hdst : cwWidth cw = (cwDst cw).val := by
    simp only [cwWidth, cwDst] at hw ⊢
    omega
  have hpack := packCw_fields hz
  rw [hu, hop, hdst] at hpack
  exact ⟨(row_iff_FCFC hm).2 ⟨⟨hu, hop⟩, hz, hw⟩, by rw [he, hpack]⟩

theorem noCtx_withoutWidth_spells (h : noCtx cw (withoutWidth cw x) = .ok i) (hm : row x = (v, 0xFFFF))
    (hu : cwUnit cw = cwUnit v) (hop : cwOp cw = cwOp v)
    (he : encode x = (packCw (cwUnit v) (cwOp v) 0 0, if usesOpd x then opd else 0)) :
    Spells cw opd i := by
  obtain ⟨hc, h⟩ := noCtx_eq_ok.1 h
  obtain ⟨hz, hw, rfl⟩ := withoutWidth_eq_ok.1 h
  have hpack := packCw_fields hz
  rw [hu, hop, hc, hw] at hpack
  exact ⟨(row_iff_FFFF hm).2 ⟨⟨hu, hop⟩, hc, hz, hw⟩, by rw [he, hpack]⟩

theorem noCtx_withWidth_spells (h : noCtx cw (withWidth cw x) = .ok i) (hm : row x = (v, 0xFF80))
    (hu : cwUnit cw = cwUnit v) (hop : cwOp cw = cwOp v)
    (he : encode x = (packCw (cwUnit v) (cwOp v) 0 (cwWidth cw), if usesOpd x then opd else 0)) :
    Spells cw opd i := by
  obtain ⟨hc, h⟩ := noCtx_eq_ok.1 h
  obtain ⟨hz, rfl⟩ := withWidth_eq_ok.1 h
  have hpack := packCw_fields hz
  rw [hu, hop, hc] at hpack
  exact ⟨(row_iff_FF80 hm).2 ⟨⟨hu, hop⟩, hc, hz⟩, by rw [he, hpack]⟩

/-- Case by case of the decoder's rows: the third is R.PEEK, the fifth to the twelfth have a width, the twenty-fourth is
R.NEW, the last is no row. -/
theorem decodeReader_spells (hu : cwUnit cw = 0) (h : decodeReader cw opd = .ok i) : Spells cw opd i := by
  unfold decodeReader at h
  split at h
  case h_3 hop => exact peekBits_spells h rfl hu hop rfl
  case h_5 hop | h_6 hop | h_7 hop | h_8 hop | h_9 hop | h_10 hop | h_11 hop | h_12 hop =>
    exact withWidth_spells h rfl hu hop rfl
  case h_24 hop => exact noCtx_withoutWidth_spells h rfl hu hop rfl
  case h_25 => cases h
  all_goals
    rename_i hop
    exact withoutWidth_spells h rfl hu hop rfl

/-- Of the writer's rows the second to the fifth have a width; the last is no row. -/
theorem decodeWriter_spells (hu : cwUnit cw = 1) (h : decodeWriter cw opd = .ok i) : Spells cw opd i := by
  unfold decodeWriter at h
  split at h
  case h_2 hop | h_3 hop | h_4 hop | h_5 hop => exact noCtx_withWidth_spells h rfl hu hop rfl
  case h_17 => cases h
  all_goals
    rename_i hop
    exact noCtx_withoutWidth_spells h rfl hu hop rfl

/-- By the unit that the word names. -/
theorem decode_spells (h : decode cw opd = .ok i) : Spells cw opd i := by
  have hlt := cwUnit_lt cw
  obtain hu | hu : cwUnit cw = 0 ∨ cwUnit cw = 1 := by omega
  · exact decodeReader_spells hu (decode_reader hu ▸ h)
  · exact decodeWriter_spells hu (decode_writer hu ▸ h)

/-- Settles O3: a word that decodes is its command's encoding. -/
theorem decodeThenEncodeIsIdentity : Obligations.DecodeThenEncodeIsIdentity := by
  intro cw opd i h
  rw [(decode_spells h).encode]
  exact ⟨rfl, rfl⟩

/-! ## The encoding of a well-formed command -/

open RowMatch in
/-- The encoding of a well-formed command is a word of the command's row. -/
theorem encode_row (i : Instr) : RowMatch.Statement i := by
  cases i
  exacts [rBit _, rSkip _ _, rPeek _ _, rAt _, rUint8 _ _, rUint16 _ _, rUint32 _ _, rUint64 _ _, rInt8 _ _,
    rInt16 _ _, rInt32 _ _, rInt64 _ _, rByte _, rLe16 _, rLe32 _, rLe64 _, rBe16 _, rBe32 _, rBe64 _, rLeftBits _,
    rLeftBytes _, rReset _, rError _, rNew _, wAt, wPutU8 _ _, wPutU16 _ _, wPutU32 _ _, wPutU64 _ _, wPutByte _,
    wPutLe16 _, wPutLe32 _, wPutLe64 _, wPutBe16 _, wPutBe32 _, wPutBe64 _, wFlush, wReset, wError, wNew _]

/-- A legal width fits in the seven bits of the field WIDTH. -/
theorem width_lt_of_widthOk {w n : Nat} (h : widthOk w n = true) (hn : n ≤ 64) : w < 128 := by
  have := widthOk_iff.1 h
  omega

/-- The fields of a well-formed command's encoding are its operands. -/
theorem encode_operands (hw : i.wf = true) : Operands (encode i).1 (encode i).2 i := by
  have h0 : 0 < 128 := by decide
  cases i
  case rPeek src dst =>
    exact Prod.ext (cwCtx_pack (by decide) (by decide) src.isLt (dst.isLt.trans (by decide))).symm
      (cwDst_pack (by decide) (by decide) src.isLt dst.isLt).symm
  case rUint8 c w | rUint16 c w | rUint32 c w | rUint64 c w | rInt8 c w | rInt16 c w | rInt32 c w | rInt64 c w =>
    have hw := width_lt_of_widthOk hw (by decide)
    exact Prod.ext (cwCtx_pack (by decide) (by decide) c.isLt hw).symm
      (cwWidth_pack (by decide) (by decide) c.isLt hw).symm
  case wPutU8 w _ | wPutU16 w _ | wPutU32 w _ | wPutU64 w _ =>
    have hw := width_lt_of_widthOk hw (by decide)
    exact Prod.ext (cwWidth_pack (by decide) (by decide) (by decide) hw).symm rfl
  case rSkip c _ => exact Prod.ext (cwCtx_pack (by decide) (by decide) c.isLt h0).symm rfl
  case wAt | wFlush | wReset | wError => trivial
  case rNew | wNew | wPutByte | wPutLe16 | wPutLe32 | wPutLe64 | wPutBe16 | wPutBe32 | wPutBe64 => rfl
  all_goals exact (cwCtx_pack (by decide) (by decide) (Fin.isLt _) h0).symm

/-- Settles O2: the encoding is of the command's row and its fields are the command's operands. -/
theorem encodeThenDecodeIsIdentity : Obligations.EncodeThenDecodeIsIdentity :=
  fun i hw => decode_of_row (encode_row i hw) (encode_operands hw)

/-! ## When a command is refused -/

/-- R68's constraint on a command that depends on the state: a position bound, or the capacity of a new stream. -/
def Bound (s : State) (i : Instr) : Prop :=
  match consumes i, produces i, i with
  | some (c, w), _, _ => (s.ctx c).pos.toNat + w < posLimit
  | none, some w, _ => s.wr.cur.pos.toNat + w < posLimit
  | none, none, .rNew n => n.toNat ≤ s.cfg.rcap
  | none, none, .wNew n => n.toNat ≤ s.cfg.wcap
  | none, none, _ => True

theorem bound_of_consumes {c : Ctx} {w : Nat} (h : consumes i = some (c, w)) :
    Bound s i ↔ (s.ctx c).pos.toNat + w < posLimit := by
  cases i <;> cases h <;> rfl

theorem bound_of_produces {w : Nat} (h : produces i = some w) : Bound s i ↔ s.wr.cur.pos.toNat + w < posLimit := by
  cases i <;> cases h <;> rfl

theorem requirePosition_refused_iff {pos : Word} {n : Nat} {r : Result} (hr : ∀ x, r ≠ .refused x) :
    (∃ x, requirePosition pos n r = .refused x) ↔ ¬pos.toNat + n < posLimit := by
  by_cases hp : pos.toNat + n < posLimit
  · simp [requirePosition_ok hp, hp, hr]
  · simp [requirePosition_bad hp, hp]

theorem requireCapacity_refused_iff {len : Word} {cap : Nat} {t : State} :
    (∃ x, requireCapacity len cap (.next t) = .refused x) ↔ ¬len.toNat ≤ cap := by
  by_cases hn : len.toNat ≤ cap
  · simp [requireCapacity_ok hn, hn]
  · simp [requireCapacity_bad hn, hn]

theorem consume_refused_iff {c : Ctx} {w : Nat} {form : Nat → Word} :
    (∃ r, consume c w form s = .refused r) ↔ ¬(s.ctx c).pos.toNat + w < posLimit := by
  refine requirePosition_refused_iff fun x => ?_
  split <;> simp

theorem produce_refused_iff {w f : Nat} :
    (∃ r, produce w f s = .refused r) ↔ ¬s.wr.cur.pos.toNat + w < posLimit :=
  requirePosition_refused_iff fun _ => by simp

/-- A well-formed command is refused exactly where its bound fails. -/
theorem exec_refused_iff_of_wf (hw : i.wf = true) : (∃ r, exec i s = .refused r) ↔ ¬Bound s i := by
  cases hr : readShape i with
  | some x =>
    obtain ⟨c, w, form⟩ := x
    rw [exec_read hr hw, consume_refused_iff, bound_of_consumes (consumes_of_readShape hr)]
  | none =>
    cases hp : putShape i with
    | some x =>
      obtain ⟨w, f⟩ := x
      rw [exec_put hp hw, produce_refused_iff, bound_of_produces (produces_of_putShape hp)]
    | none =>
      cases i <;> simp only [readShape, putShape, reduceCtorEq] at hr hp
      case rSkip => exact requirePosition_refused_iff fun _ => by simp
      case rNew | wNew => exact requireCapacity_refused_iff
      all_goals exact iff_of_false nofun (not_not_intro trivial)

theorem exec_refused_iff : (∃ r, exec i s = .refused r) ↔ ¬(i.wf = true ∧ Bound s i) := by
  cases hw : i.wf with
  | true => simp [exec_refused_iff_of_wf hw]
  | false => simp [exec_ill_formed hw]

/-! ## The opcode table -/

/-- Every command's columns are those of a row of the table. -/
theorem row_mem_table (i : Instr) : row i ∈ table.map fun r => (r.mtch, r.mask) := by
  cases i <;> simp only [row] <;> decide

/-- A command without a width is always well-formed: its row's constraint is its bound. -/
theorem need_fixed {p : State → Prop} (hw : i.wf = true) : ∀ s, p s ↔ i.wf = true ∧ p s :=
  fun _ => (and_iff_right hw).symm

/-- R65's width constraint, as a row and as the command writes it. -/
theorem need_width {w n : Nat} {p : State → Prop} : ∀ s, (1 ≤ w ∧ w ≤ n ∧ p s) ↔ (widthOk w n = true ∧ p s) :=
  fun _ => by rw [widthOk_iff, and_assoc]

/-- Row by row of R63 and R64: the command of the row with the word's fields as its operands, and that the row's
constraint is this command's. -/
theorem table_command (cw : CmdWord) (opd : Word) : ∀ r ∈ table, ∃ i,
    row i = (r.mtch, r.mask) ∧ Operands cw opd i ∧ ∀ s, r.need s cw opd ↔ i.wf = true ∧ Bound s i := by
  simp only [table, readerRows, writerRows, List.forall_mem_append, List.forall_mem_cons, List.not_mem_nil,
    IsEmpty.forall_iff, implies_true, and_true]
  refine ⟨⟨?_, ?_⟩, ?_, ?_⟩
  · exact ⟨⟨.rBit _, rfl, rfl, need_fixed rfl⟩, ⟨.rSkip _ _, rfl, rfl, need_fixed rfl⟩,
      ⟨.rPeek _ _, rfl, rfl, need_fixed rfl⟩, ⟨.rAt _, rfl, rfl, need_fixed rfl⟩, ⟨.rUint8 _ _, rfl, rfl, need_width⟩,
      ⟨.rUint16 _ _, rfl, rfl, need_width⟩, ⟨.rUint32 _ _, rfl, rfl, need_width⟩,
      ⟨.rUint64 _ _, rfl, rfl, need_width⟩, ⟨.rInt8 _ _, rfl, rfl, need_width⟩, ⟨.rInt16 _ _, rfl, rfl, need_width⟩,
      ⟨.rInt32 _ _, rfl, rfl, need_width⟩, ⟨.rInt64 _ _, rfl, rfl, need_width⟩⟩
  · exact ⟨⟨.rByte _, rfl, rfl, need_fixed rfl⟩, ⟨.rLe16 _, rfl, rfl, need_fixed rfl⟩,
      ⟨.rLe32 _, rfl, rfl, need_fixed rfl⟩, ⟨.rLe64 _, rfl, rfl, need_fixed rfl⟩,
      ⟨.rBe16 _, rfl, rfl, need_fixed rfl⟩, ⟨.rBe32 _, rfl, rfl, need_fixed rfl⟩,
      ⟨.rBe64 _, rfl, rfl, need_fixed rfl⟩, ⟨.rLeftBits _, rfl, rfl, need_fixed rfl⟩,
      ⟨.rLeftBytes _, rfl, rfl, need_fixed rfl⟩, ⟨.rReset _, rfl, rfl, need_fixed rfl⟩,
      ⟨.rError _, rfl, rfl, need_fixed rfl⟩, ⟨.rNew _, rfl, rfl, need_fixed rfl⟩⟩
  · exact ⟨⟨.wAt, rfl, trivial, need_fixed rfl⟩, ⟨.wPutU8 _ _, rfl, rfl, need_width⟩,
      ⟨.wPutU16 _ _, rfl, rfl, need_width⟩, ⟨.wPutU32 _ _, rfl, rfl, need_width⟩,
      ⟨.wPutU64 _ _, rfl, rfl, need_width⟩, ⟨.wPutByte _, rfl, rfl, need_fixed rfl⟩,
      ⟨.wPutLe16 _, rfl, rfl, need_fixed rfl⟩, ⟨.wPutLe32 _, rfl, rfl, need_fixed rfl⟩,
      ⟨.wPutLe64 _, rfl, rfl, need_fixed rfl⟩⟩
  · exact ⟨⟨.wPutBe16 _, rfl, rfl, need_fixed rfl⟩, ⟨.wPutBe32 _, rfl, rfl, need_fixed rfl⟩,
      ⟨.wPutBe64 _, rfl, rfl, need_fixed rfl⟩, ⟨.wFlush, rfl, trivial, need_fixed rfl⟩,
      ⟨.wReset, rfl, trivial, need_fixed rfl⟩, ⟨.wError, rfl, trivial, need_fixed rfl⟩,
      ⟨.wNew _, rfl, rfl, need_fixed rfl⟩⟩

/-- R68: a command is legal exactly when its word decodes to a command whose constraints hold. -/
theorem legal_iff : Legal s cw opd ↔ ∃ i, decode cw opd = .ok i ∧ i.wf = true ∧ Bound s i := by
  constructor
  · rintro ⟨r, hr, hm, hneed⟩
    obtain ⟨i, hcol, ho, hi⟩ := table_command cw opd r hr
    exact ⟨i, decode_of_row (by rwa [hcol]) ho, (hi s).1 hneed⟩
  · rintro ⟨i, hd, hb⟩
    obtain ⟨r, hr, hri⟩ := List.mem_map.1 (row_mem_table i)
    have hm : cw &&& r.mask = r.mtch := by
      have := (decode_spells hd).row
      rwa [← hri] at this
    obtain ⟨j, hcol, ho, hj⟩ := table_command cw opd r hr
    have hdj : decode cw opd = .ok j := decode_of_row (by rwa [hcol]) ho
    obtain rfl : i = j := Except.ok.inj (hd.symm.trans hdj)
    exact ⟨r, hr, hm, (hj s).2 hb⟩

/-- The host's later moves have no part in it. -/
theorem legal_withPending (l : List HostMove) : Legal { s with pending := l } cw opd ↔ Legal s cw opd := by
  have hb : ∀ i, Bound { s with pending := l } i ↔ Bound s i := fun _ => Iff.rfl
  simp only [legal_iff, hb]

/-- A command at the port is refused exactly when it is not legal. -/
theorem takeMove_refused_iff : (∃ r, takeMove (.command cw opd) s = .refused r) ↔ ¬Legal s cw opd := by
  rw [legal_iff]
  cases hd : decode cw opd with
  | ok i => rw [takeMove_command s hd, exec_refused_iff]; simp
  | error why => simp [takeMove_illegal s hd]

/-- Every mask covers U and OP, in which no two rows agree. -/
theorem table_differs : table.Pairwise fun x y =>
    x.mask &&& 0xFC00 = 0xFC00 ∧ y.mask &&& 0xFC00 = 0xFC00 ∧ x.mtch &&& 0xFC00 ≠ y.mtch &&& 0xFC00 := by
  decide

/-- A word of a row has the row's U and OP. -/
theorem high_bits_of_match {m l : CmdWord} (hm : m &&& 0xFC00 = 0xFC00) (h : cw &&& m = l) :
    l &&& 0xFC00 = cw &&& 0xFC00 := by
  rw [← h, BitVec.and_assoc, hm]

/-- Settles O4: two rows never match one word, as they differ in U or OP; and a word that matches a row decodes to the
row's command, which is refused exactly where the row's constraint fails. -/
theorem refusedExactlyWhenIllegal : Obligations.RefusedExactlyWhenIllegal := by
  refine ⟨table_differs.imp ?_, fun s cw opd rest hp => ?_⟩
  · rintro x y ⟨hx, hy, hne⟩ cw ⟨hcx, hcy⟩
    exact hne ((high_bits_of_match hx hcx).trans (high_bits_of_match hy hcy).symm)
  · rw [step_move hp, takeMove_refused_iff, legal_withPending]

end Sys2Proof
end

section
/-! PROOFS of the statements about the reader's bit-field commands (40_reader_bitfield.md): their words, what they read,
and R90's laws. Every one of them is a consumption, so the proofs go through `consume` and its inversion. -/

namespace Sys2Proof

open Sys2Proof.Machine Sys2Proof.Spec Sys2Proof.Laws

variable {s t : State} {i : Instr} {c : Ctx} {w : Nat}

/-! ## The words of a row -/

/-- The fields of the word that a row's match column `b` and the fields CTX and WIDTH add up to (30_encoding.md R61). -/
theorem fields_of_row_add {b : Nat} {m : CmdWord} (hm : row i = (BitVec.ofNat 16 b, m)) (hb : b < 2 ^ 16) (c : Ctx)
    (hw : w < 128) :
    let cw : CmdWord := BitVec.ofNat 16 (b + 0x100 * c.val + w)
    (cwUnit cw = cwUnit (BitVec.ofNat 16 b) ∧ cwOp cw = cwOp (BitVec.ofNat 16 b)) ∧
      cwCtx cw = c ∧ cwZ cw = 0 ∧ cwWidth cw = w := by
  have hrow : (BitVec.ofNat 16 b).toNat = b := by rw [BitVec.toNat_ofNat, Nat.mod_eq_of_lt hb]
  have hlow : b % 1024 = 0 := by
    have h := congrArg BitVec.toNat (row_match_eq i)
    rw [hm, hrow, BitVec.toNat_ofNat] at h
    omega
  have hc : c.val < 4 := c.isLt
  have hcw : (BitVec.ofNat 16 (b + 0x100 * c.val + w)).toNat = b + 0x100 * c.val + w := by
    rw [BitVec.toNat_ofNat, Nat.mod_eq_of_lt (by omega)]
  simp only [cwUnit, cwOp, cwCtx, cwZ, cwWidth, Fin.ext_iff, hcw, hrow]
  omega

/-- The word of a reader command with a context and no width. -/
theorem stands_of_row_FCFF {b : Nat} (hm : row i = (BitVec.ofNat 16 b, 0xFCFF)) (hb : b < 2 ^ 16)
    (ho : ∀ cw opd, Operands cw opd i ↔ c = cwCtx cw) : Stands (b + 0x100 * c.val) (fun _ => i) := by
  intro opd
  obtain ⟨hop, hc, hz, hw⟩ := fields_of_row_add hm hb c (w := 0) (by decide)
  exact decode_of_row ((row_iff_FCFF hm).2 ⟨hop, hz, hw⟩) ((ho _ _).2 hc.symm)

/-- The word of a reader command with a context and a width. -/
theorem stands_of_row_FC80 {b : Nat} (hm : row i = (BitVec.ofNat 16 b, 0xFC80)) (hb : b < 2 ^ 16)
    (ho : ∀ cw opd, Operands cw opd i ↔ (c, w) = (cwCtx cw, cwWidth cw)) (hw : w < 128) :
    Stands (b + 0x100 * c.val + w) (fun _ => i) := by
  intro opd
  obtain ⟨hop, hc, hz, hwidth⟩ := fields_of_row_add hm hb c hw
  exact decode_of_row ((row_iff_FC80 hm).2 ⟨hop, hz⟩) ((ho _ _).2 (Prod.ext hc.symm hwidth.symm))

theorem stands_uintOf (n : Size) (c : Ctx) (hw : w < 128) :
    Stands (0x1000 + 0x400 * n.code + 0x100 * c.val + w) (fun _ => uintOf n c w) := by
  cases n <;> exact stands_of_row_FC80 rfl (by decide) (fun _ _ => Iff.rfl) hw

theorem stands_intOf (n : Size) (c : Ctx) (hw : w < 128) :
    Stands (0x2000 + 0x400 * n.code + 0x100 * c.val + w) (fun _ => intOf n c w) := by
  cases n <;> exact stands_of_row_FC80 rfl (by decide) (fun _ _ => Iff.rfl) hw

/-! ## What the commands are -/

/-- R82 to R85 for every size. -/
theorem exec_uintOf (n : Size) (c : Ctx) (w : Nat) (s : State) :
    exec (uintOf n c w) s = requireWidth w n.bits (consume c w unsignedRes s) := by
  cases n <;> rfl

/-- R86 to R89 for every size. -/
theorem exec_intOf (n : Size) (c : Ctx) (w : Nat) (s : State) :
    exec (intOf n c w) s = requireWidth w n.bits (consume c w (signedRes w) s) := by
  cases n <;> rfl

theorem size_bits_le (n : Size) : n.bits ≤ 64 := by cases n <;> decide

/-- A command that is a consumption reads its field, in the form it returns it. -/
theorem reads_of_consume {form : Nat → Word} (h : ∀ s, exec i s = consume c w form s) :
    Reads i c w (fun B L p => form (fieldOf B L p w)) := by
  refine ⟨fun s B hp hB => ?_, fun s hp => ?_⟩
  · rw [h, consume_ok hp (extract_holds hB), afterConsume_eq]
  · rw [h, consume_refused hp.not_gt]

/-- Settles O12: R.BIT consumes a field of one bit. -/
theorem bitReadsOneStreamBit : Obligations.BitReadsOneStreamBit := by
  intro c
  refine ⟨stands_of_row_FCFF rfl (by decide) fun _ _ => Iff.rfl, ?_⟩
  simp only [← fieldOf_one]
  exact reads_of_consume fun _ => rfl

/-- R65: a width of 0 or above the result width is not between 1 and it. -/
theorem width_illegal {n : Nat} (h : w = 0 ∨ n < w) : ¬(1 ≤ w ∧ w ≤ n) := by omega

/-- Settles O13: a legal width consumes its field, any other is refused. -/
theorem uintReadsUnsignedField : Obligations.UintReadsUnsignedField := by
  refine fun n c w => ⟨stands_uintOf n c, fun h1 hn => ?_, fun hw s => ?_⟩
  · exact reads_of_consume fun s => (exec_uintOf n c w s).trans (requireWidth_ok ⟨h1, hn⟩ _)
  · rw [exec_uintOf, requireWidth_bad (width_illegal hw)]

/-- Settles O14: the same consumption, with the field's signed value returned. -/
theorem intReadsSignedField : Obligations.IntReadsSignedField := by
  refine fun n c w => ⟨stands_intOf n c, fun h1 hn => ?_, fun hw s => ?_⟩
  · simp only [signedOf_eq]
    exact reads_of_consume fun s => (exec_intOf n c w s).trans (requireWidth_ok ⟨h1, hn⟩ _)
  · rw [exec_intOf, requireWidth_bad (width_illegal hw)]

/-! ## The laws of R90 -/

/-- The value of an unsigned result is the field. -/
theorem unsignedRes_toNat {raw : Nat} (hw : w ≤ 64) (h : raw < 2 ^ w) : (unsignedRes raw).toNat = raw := by
  have h64 : raw < 2 ^ 64 := h.trans_le (Nat.pow_le_pow_right (by decide) hw)
  rw [unsignedRes, BitVec.toNat_ofNat, Nat.mod_eq_of_lt h64]

/-- The one way R.UINTn completes: its response's value is the field. -/
theorem exec_uintOf_next {n : Size} (h : exec (uintOf n c w) s = .next t) :
    ∃ res : Word, (1 ≤ w ∧ w ≤ n.bits) ∧ (s.ctx c).pos.toNat + w < posLimit ∧
      extract s.rd.buf s.rd.len.toNat (s.ctx c).pos.toNat w = some res.toNat ∧
      t = (s.setCtx c ((s.ctx c).advance s.rd.len.toNat w)).respond res 0 := by
  rw [exec_uintOf] at h
  obtain ⟨hw, h⟩ := requireWidth_next h
  obtain ⟨raw, hp, hraw, rfl⟩ := consume_next h
  refine ⟨unsignedRes raw, hw, hp, ?_, rfl⟩
  rw [hraw, unsignedRes_toNat (hw.2.trans (size_bits_le n)) (extract_lt hraw)]

/-- R90 (a). -/
theorem exec_intOf_of_uintOf {n : Size} {x : Response} (h : exec (uintOf n c w) s = .next t)
    (hx : t.responses = s.responses ++ [x]) :
    exec (intOf n c w) s = .next { t with responses := s.responses ++ [⟨signedRes w x.res.toNat, 0⟩] } := by
  obtain ⟨res, hw, hp, hraw, rfl⟩ := exec_uintOf_next h
  obtain rfl : ⟨res, 0⟩ = x := by simpa using hx
  rw [exec_intOf, requireWidth_ok hw, consume_ok hp hraw]
  rfl

/-- R9, with the top bit clear first. -/
theorem tosigned_eq_ite (r w : Nat) : tosigned r w = if r < 2 ^ (w - 1) then (r : Int) else r - 2 ^ w := by
  split
  · exact tosigned_of_lt ‹_›
  · rw [tosigned_of_ge (Nat.not_lt.1 ‹_›), Nat.cast_pow, Nat.cast_ofNat]

/-- R90 (b): the cursor advances by the sum either way, and a field of `a + b` bits is the two fields side by side. -/
theorem exec_uintOf_add {a b : Nat} {n m k : Size} {x y : Response} (hk : a + b ≤ k.bits)
    (h : execAll [uintOf n c a, uintOf m c b] s = .next t) (hxy : t.responses = s.responses ++ [x, y]) :
    exec (uintOf k c (a + b)) s =
      .next { t with responses := s.responses ++ [⟨BitVec.ofNat 64 (x.res.toNat * 2 ^ b + y.res.toNat), 0⟩] } := by
  obtain ⟨u, hu, h⟩ := execAll_cons_eq_next.1 h
  obtain ⟨v, hv, h⟩ := execAll_cons_eq_next.1 h
  cases h
  obtain ⟨rx, ⟨ha, -⟩, hpa, hrx, rfl⟩ := exec_uintOf_next hu
  obtain ⟨ry, -, hpb, hry, rfl⟩ := exec_uintOf_next hv
  obtain ⟨rfl, rfl⟩ : ⟨rx, 0⟩ = x ∧ ⟨ry, 0⟩ = y := by simpa using hxy
  simp only [ctx_respond, ctx_setCtx_same, respond_rd, setCtx_rlen, setCtx_rbuf,
    Cursor.advance_pos_toNat _ hpa] at hpb hry
  have hpos : (s.ctx c).pos.toNat + (a + b) < posLimit := by rwa [← Nat.add_assoc]
  rw [exec_uintOf, requireWidth_ok ⟨by omega, hk⟩, consume_ok hpos (extract_add hrx hry),
    ← Cursor.advance_advance hpa, ← setCtx_setCtx s c ((s.ctx c).advance s.rd.len.toNat a)]
  simp only [ctx_respond, ctx_setCtx_same, respond_rd, setCtx_rlen]
  rfl

/-- R90 (c). -/
theorem exec_uintOf_size {n m : Size} (hn : w ≤ n.bits) (hm : w ≤ m.bits) :
    exec (uintOf n c w) s = exec (uintOf m c w) s := by
  rw [exec_uintOf, exec_uintOf]
  by_cases h1 : 1 ≤ w
  · rw [requireWidth_ok ⟨h1, hn⟩, requireWidth_ok ⟨h1, hm⟩]
  · rw [requireWidth_bad fun h => h1 h.1, requireWidth_bad fun h => h1 h.1]

/-- Replacing a context's flag changes a flag at most. -/
theorem SameButFlags.putCtx_err (s : State) (c : Ctx) (e : ErrState) :
    SameButFlags s (putCtx s c { s.ctx c with err := e }) := by
  have hrefl : SameButFlags s s := ⟨rfl, rfl, rfl, rfl, rfl, fun _ => rfl, rfl, rfl, rfl⟩
  have h := hrefl.setCtx c (cur := s.ctx c) (cur' := { s.ctx c with err := e }) rfl
  rwa [setCtx_ctx_self] at h

/-- R90 (d). -/
theorem exec_uintOf_putCtx_err {n : Size} (e : ErrState) (h : exec (uintOf n c w) s = .next t) :
    ∃ t', exec (uintOf n c w) (putCtx s c { s.ctx c with err := e }) = .next t' ∧ SameButFlags t t' := by
  rw [exec_uintOf] at h
  obtain ⟨hw, h⟩ := requireWidth_next h
  rw [exec_uintOf, requireWidth_ok hw]
  exact (SameButFlags.putCtx_err s c e).consume h

/-- Settles O41: the four laws of R90. -/
theorem bitFieldReadLaws : Obligations.BitFieldReadLaws := by
  refine ⟨fun s t c w n x h hx => ⟨_, exec_intOf_of_uintOf h hx, ?_⟩,
    fun s t c a b n m k x y _ _ _ _ hk h hxy => exec_uintOf_add hk h hxy,
    fun s c w n m hn hm => exec_uintOf_size hn hm, fun s t c w n e h => ?_⟩
  · rw [signedRes, tosigned_eq_ite]
  · obtain ⟨t', ht', hsame⟩ := exec_uintOf_putCtx_err e h
    exact ⟨t', ht', hsame.responses, hsame.rpos c⟩

end Sys2Proof
end

section
/-! PROOFS of the statements about the reader's whole-byte commands (41_reader_bytes.md): their words, the bytes they
read in either order, and R108's equivalence with successive R.BYTE commands. -/

namespace Sys2Proof

open Sys2Proof.Machine Sys2Proof.Spec

variable {s b t : State} {i : Instr} {c : Ctx} {k w : Nat}

/-! ## What the commands read -/

/-- R8: eight stream bits are a byte. -/
theorem fieldOf_eight_lt (B : Nat → Byte) (L p : Nat) : fieldOf B L p 8 < 256 := fieldOf_lt B L p 8

/-- R100, big-endian: a field of `8k` bits as it stands is its bytes, the first the most significant. -/
theorem reads_be (h : ∀ s, exec i s = consume c (8 * k) unsignedRes s) :
    Reads i c (8 * k) (fun B L p => BitVec.ofNat 64 (beOf k fun j => fieldOf B L (p + 8 * j) 8)) := by
  simp only [← fieldOf_be]
  exact reads_of_consume h

/-- R100, little-endian: the same field with its bytes reversed, so that the first is the least significant. -/
theorem reads_le (h : ∀ s, exec i s = consume c (8 * k) (littleEndianRes k) s) :
    Reads i c (8 * k) (fun B L p => BitVec.ofNat 64 (leOf k fun j => fieldOf B L (p + 8 * j) 8)) := by
  simp only [← bswap_beOf fun _ => fieldOf_eight_lt _ _ _, ← fieldOf_be]
  exact reads_of_consume h

/-- Settles O15: each command consumes its bytes and returns the field as it stands. -/
theorem byteAndBigEndianReads : Obligations.ByteAndBigEndianReads := by
  refine fun c => ⟨?_, ?_, ?_, ?_, reads_of_consume fun _ => rfl, reads_be (k := 2) fun _ => rfl,
    reads_be (k := 4) fun _ => rfl, reads_be (k := 8) fun _ => rfl⟩
  all_goals exact stands_of_row_FCFF rfl (by decide) fun _ _ => Iff.rfl

/-- Settles O16: each command consumes its bytes and returns them reversed. -/
theorem littleEndianReads : Obligations.LittleEndianReads := by
  refine fun c => ⟨?_, ?_, ?_, reads_le (k := 2) fun _ => rfl, reads_le (k := 4) fun _ => rfl,
    reads_le (k := 8) fun _ => rfl⟩
  all_goals exact stands_of_row_FCFF rfl (by decide) fun _ _ => Iff.rfl

/-! ## Successive R.BYTE commands -/

/-- A stream for `Holds`: the bytes that hold values, and 0 in place of the others, in which no readable field lies. -/
def heldBytes (m : Memory) (a : Nat) : Byte := (m.read a).getD 0

/-- The converse of `extract_holds`: a field that has a value lies in bytes that hold values. -/
theorem holds_of_extract {m : Memory} {L p r : Nat} (h : extract m L p w = some r) :
    Holds m (heldBytes m) L p w := by
  intro n hp hw hL
  have hbits := extract_isSome.1 (Option.isSome_of_eq_some h) (n - p) (by omega)
  rw [Nat.add_sub_cancel' hp] at hbits
  obtain ⟨x, hx⟩ := Option.isSome_iff_exists.1 (sbit_isSome.1 hbits hL)
  rw [heldBytes, hx, Option.getD_some]

/-- Two fields side by side are one. -/
theorem holds_append {m : Memory} {B : Nat → Byte} {L p x y : Nat} (hx : Holds m B L p x)
    (hy : Holds m B L (p + x) y) : Holds m B L p (x + y) := by
  intro n hp hn hL
  by_cases hnx : n < p + x
  · exact hx n hp hnx hL
  · exact hy n (Nat.not_lt.1 hnx) (by omega) hL

/-- Byte `j` counted from the position of context `c`, at any alignment. -/
def byteAhead (s : State) (c : Ctx) (j : Nat) : Nat :=
  fieldOf (heldBytes s.rd.buf) s.rd.len.toNat ((s.ctx c).pos.toNat + 8 * j) 8

/-- The responses of `k` successive R.BYTE commands on `c` from `s`. -/
def byteResponses (s : State) (c : Ctx) (k : Nat) : List Response :=
  (List.range k).map fun j => ⟨unsignedRes (byteAhead s c j), 0⟩

/-- The state after `k` successive R.BYTE commands on `c` from `s`. -/
def afterBytes (s : State) (c : Ctx) (k : Nat) : State :=
  { s.setCtx c ((s.ctx c).advance s.rd.len.toNat (8 * k)) with responses := s.responses ++ byteResponses s c k }

@[simp] theorem afterBytes_rlen (s : State) (c : Ctx) (k : Nat) : (afterBytes s c k).rd.len = s.rd.len := rfl
@[simp] theorem afterBytes_rbuf (s : State) (c : Ctx) (k : Nat) : (afterBytes s c k).rd.buf = s.rd.buf := rfl

@[simp] theorem afterBytes_ctx (s : State) (c : Ctx) (k : Nat) :
    (afterBytes s c k).ctx c = (s.ctx c).advance s.rd.len.toNat (8 * k) := ctx_setCtx_same ..

/-- After `m` bytes, the bytes ahead are the same, `m` nearer. -/
theorem byteAhead_afterBytes {m : Nat} (hpos : (s.ctx c).pos.toNat + 8 * m < posLimit) (j : Nat) :
    byteAhead (afterBytes s c m) c j = byteAhead s c (m + j) := by
  rw [byteAhead, afterBytes_rbuf, afterBytes_rlen, afterBytes_ctx, Cursor.advance_pos_toNat _ hpos, Nat.add_assoc,
    ← Nat.mul_add, byteAhead]

/-- `m` bytes and then `n` are `m + n` bytes. -/
theorem afterBytes_afterBytes {m : Nat} (hpos : (s.ctx c).pos.toNat + 8 * m < posLimit) (n : Nat) :
    afterBytes (afterBytes s c m) c n = afterBytes s c (m + n) := by
  have hresp : byteResponses s c (m + n) = byteResponses s c m ++ byteResponses (afterBytes s c m) c n := by
    simp [byteResponses, List.range_add, byteAhead_afterBytes hpos]
  have hcur : (s.ctx c).advance s.rd.len.toNat (8 * (m + n)) =
      ((afterBytes s c m).ctx c).advance s.rd.len.toNat (8 * n) := by
    rw [afterBytes_ctx, Cursor.advance_advance hpos, Nat.mul_add]
  rw [afterBytes.eq_def s c (m + n), hresp, hcur, ← setCtx_setCtx s c ((s.ctx c).advance s.rd.len.toNat (8 * m)),
    ← List.append_assoc]
  rfl

/-- The one way R.BYTE completes: it returns the byte ahead. -/
theorem exec_rByte_next (h : exec (.rByte c) s = .next t) :
    (s.ctx c).pos.toNat + 8 < posLimit ∧
      Holds s.rd.buf (heldBytes s.rd.buf) s.rd.len.toNat (s.ctx c).pos.toNat 8 ∧ t = afterBytes s c 1 := by
  obtain ⟨raw, hpos, hraw, rfl⟩ := consume_next (form := unsignedRes) h
  have hholds := holds_of_extract hraw
  obtain rfl := Option.some.inj (hraw.symm.trans (extract_holds hholds))
  exact ⟨hpos, hholds, rfl⟩

/-- The one way `k` successive R.BYTE commands complete: together they consume one field of `8k` bits, and each returns
its byte. It fails for `k = 0` past the end: no command leaves the flag alone, a field of no bits sets it (R160). -/
theorem execAll_rByte_next (hk : 1 ≤ k) (h : execAll (List.replicate k (.rByte c)) s = .next b) :
    (s.ctx c).pos.toNat + 8 * k < posLimit ∧
      Holds s.rd.buf (heldBytes s.rd.buf) s.rd.len.toNat (s.ctx c).pos.toNat (8 * k) ∧ b = afterBytes s c k := by
  induction k, hk using Nat.le_induction generalizing s with
  | base =>
    obtain ⟨t, ht, hb⟩ := execAll_cons_eq_next.1 h
    cases hb
    exact exec_rByte_next ht
  | succ k hk ih =>
    obtain ⟨t, ht, hb⟩ := execAll_cons_eq_next.1 h
    obtain ⟨hpos, hfirst, rfl⟩ := exec_rByte_next ht
    obtain ⟨hend, hrest, rfl⟩ := ih hb
    rw [afterBytes_ctx, Cursor.advance_pos_toNat _ hpos] at hend hrest
    rw [Nat.add_comm k 1, Nat.mul_add, ← Nat.add_assoc]
    exact ⟨hend, holds_append hfirst hrest, afterBytes_afterBytes hpos k⟩

/-! ## R108 -/

/-- R108 for one `k`: a command that reads `8k` bits returns its function of the bytes that `k` R.BYTE commands return,
and leaves the reader they leave. -/
theorem exec_eq_byteReads {asm : (Nat → Nat) → Nat}
    (hi : Reads i c (8 * k) (fun B L p => BitVec.ofNat 64 (asm fun j => fieldOf B L (p + 8 * j) 8))) (hk : 1 ≤ k)
    (h : execAll (List.replicate k (.rByte c)) s = .next b) :
    exec i s = .next { b with responses := s.responses ++ [⟨BitVec.ofNat 64 (asm (byteAhead s c)), 0⟩] } := by
  obtain ⟨hpos, hholds, rfl⟩ := execAll_rByte_next hk h
  rw [hi.1 s _ hpos hholds, afterConsume_eq]
  rfl

/-- A byte returned on RES is the byte. -/
theorem unsignedRes_byteAhead (s : State) (c : Ctx) (j : Nat) :
    (unsignedRes (byteAhead s c j)).toNat = byteAhead s c j :=
  unsignedRes_toNat (w := 8) (by decide) (fieldOf_lt _ _ _ _)

/-- R108 for one `k`: both helpers against the same `k` values. -/
theorem helpers_eq_byteReads {le be : Instr}
    (hle : Reads le c (8 * k) (fun B L p => BitVec.ofNat 64 (leOf k fun j => fieldOf B L (p + 8 * j) 8)))
    (hbe : Reads be c (8 * k) (fun B L p => BitVec.ofNat 64 (beOf k fun j => fieldOf B L (p + 8 * j) 8)))
    (hk : 1 ≤ k) (h : execAll (List.replicate k (.rByte c)) s = .next b) :
    ∃ v : Nat → Word, b.responses = s.responses ++ (List.range k).map (fun j => ⟨v j, 0⟩) ∧
      exec be s =
        .next { b with responses := s.responses ++ [⟨BitVec.ofNat 64 (beOf k fun j => (v j).toNat), 0⟩] } ∧
      exec le s =
        .next { b with responses := s.responses ++ [⟨BitVec.ofNat 64 (leOf k fun j => (v j).toNat), 0⟩] } := by
  obtain ⟨-, -, hb⟩ := execAll_rByte_next hk h
  refine ⟨fun j => unsignedRes (byteAhead s c j), by rw [hb]; rfl, ?_, ?_⟩
  · simp only [unsignedRes_byteAhead]
    exact exec_eq_byteReads hbe hk h
  · simp only [unsignedRes_byteAhead]
    exact exec_eq_byteReads hle hk h

/-- Settles O42: O15 and O16 for the two helpers of each size, against the run of R.BYTE commands. -/
theorem helpersEqualByteReads : Obligations.HelpersEqualByteReads := by
  intro s b c k le be hmem h
  obtain ⟨-, -, -, -, -, hbe16, hbe32, hbe64⟩ := byteAndBigEndianReads c
  obtain ⟨-, -, -, hle16, hle32, hle64⟩ := littleEndianReads c
  simp only [List.mem_cons, Prod.mk.injEq, List.not_mem_nil, or_false] at hmem
  obtain ⟨rfl, rfl, rfl⟩ | ⟨rfl, rfl, rfl⟩ | ⟨rfl, rfl, rfl⟩ := hmem
  · exact helpers_eq_byteReads hle16 hbe16 (by decide) h
  · exact helpers_eq_byteReads hle32 hbe32 (by decide) h
  · exact helpers_eq_byteReads hle64 hbe64 (by decide) h

end Sys2Proof
end

section
/-! PROOFS of the statements about the reader's cursor commands (42_reader_cursor.md): R.SKIP, R.PEEK, the reports, R.RESET
and R.NEW, and R118's laws of snapshots. The laws rest on one fact: a command on one context is a function of that
context's cursor and the bound stream, whichever context it is issued on. -/

namespace Sys2Proof

open Sys2Proof.Machine Sys2Proof.Spec Sys2Proof.Laws

variable {s t u : State} {i j : Instr} {c d : Ctx} {l l' : List Instr}

/-! ## Snapshots (R118) -/

/-- Context `d` of `u` stands where context `c` of `s` does, over the same stream. -/
structure SameView (c d : Ctx) (s u : State) : Prop where
  ctx : u.ctx d = s.ctx c
  rlen : u.rd.len = s.rd.len
  rbuf : u.rd.buf = s.rd.buf

/-- The two contexts keep the same view when both are given the same cursor, whatever is answered. -/
theorem SameView.setCtx_respond (h : SameView c d s u) (cur : Cursor) (res aux : Word) :
    SameView c d ((s.setCtx c cur).respond res aux) ((u.setCtx d cur).respond res aux) where
  ctx := by rw [ctx_respond, ctx_respond, ctx_setCtx_same, ctx_setCtx_same]
  rlen := h.rlen
  rbuf := h.rbuf

/-- Moving a command to another context changes its context alone. -/
theorem readShape_moveTo {w : Nat} {form : Nat → Word} (hj : moveTo d i = some j)
    (hr : readShape i = some (c, w, form)) : readShape j = some (d, w, form) := by
  cases i <;> cases hr <;> cases hj <;> rfl

/-- Its width constraint in particular stays. -/
theorem wf_moveTo (hj : moveTo d i = some j) : j.wf = i.wf := by
  cases i <;> cases hj <;> rfl

/-- A command on one context alone that completes sets that context's cursor and answers, as a function of the cursor and
the stream: moved to any context with the same view, it sets the same cursor and answers the same. -/
theorem exec_moveTo (hon : On c i) (h : exec i s = .next t) :
    ∃ cur res aux, t = (s.setCtx c cur).respond res aux ∧ ∀ {d : Ctx} {j : Instr} {u : State}, moveTo d i = some j →
      SameView c d s u → exec j u = .next ((u.setCtx d cur).respond res aux) := by
  have hw := wf_of_exec_next h
  cases hr : readShape i with
  | some shape =>
    obtain ⟨c', w, form⟩ := shape
    obtain rfl := ctx_of_consumes_of_on hon (consumes_of_readShape hr)
    rw [exec_read hr hw] at h
    obtain ⟨raw, hp, hraw, rfl⟩ := consume_next h
    refine ⟨_, _, _, rfl, fun {d j u} hj hv => ?_⟩
    rw [← hv.ctx] at hp
    rw [← hv.ctx, ← hv.rlen, ← hv.rbuf] at hraw
    rw [exec_read (readShape_moveTo hj hr) ((wf_moveTo hj).trans hw), consume_ok hp hraw, hv.ctx, hv.rlen]
  | none =>
    cases i <;> cases hon <;> cases hr
    case rSkip.refl.refl bits =>
      obtain ⟨hp, h⟩ := requirePosition_next h
      cases h
      refine ⟨_, _, _, rfl, fun {d j u} hj hv => ?_⟩
      cases hj
      rw [← hv.ctx] at hp
      rw [exec, execRSkip, requirePosition_ok hp, hv.ctx, hv.rlen]
    case rReset.refl.refl =>
      cases h
      refine ⟨_, _, _, rfl, fun {d j u} hj hv => ?_⟩
      cases hj
      rfl
    -- the reports: the cursor they leave is the one they found
    all_goals
      cases h
      refine ⟨s.ctx c, _, _, by rw [setCtx_ctx_self], fun {d j u} hj hv => ?_⟩
      cases hj
      simp only [← hv.ctx, ← hv.rlen, setCtx_ctx_self]
      rfl

/-- The same for a sequence of commands. -/
theorem execAll_moveTo (hon : ∀ i ∈ l, On c i) (hl : l.map (moveTo d) = l'.map some) (hv : SameView c d s u)
    (h : execAll l s = .next t) :
    ∃ v rs, execAll l' u = .next v ∧ SameView c d t v ∧ t.responses = s.responses ++ rs ∧
      v.responses = u.responses ++ rs := by
  induction l generalizing l' s u with
  | nil =>
    obtain rfl : l' = [] := by simpa using hl.symm
    cases h
    exact ⟨u, [], rfl, hv, by simp, by simp⟩
  | cons i l ih =>
    cases l' with
    | nil => cases hl
    | cons j l' =>
      obtain ⟨hj, hl⟩ := List.cons.inj hl
      obtain ⟨hhead, htail⟩ := List.forall_mem_cons.1 hon
      obtain ⟨s', hs', h⟩ := execAll_cons_eq_next.1 h
      obtain ⟨cur, res, aux, rfl, hrun⟩ := exec_moveTo hhead hs'
      obtain ⟨v, rs, hrest, hview, ht, hanswers⟩ := ih htail hl (hv.setCtx_respond cur res aux) h
      exact ⟨v, ⟨res, aux⟩ :: rs, execAll_cons_eq_next.2 ⟨_, hrun hj hv, hrest⟩, hview, by simpa using ht,
        by simpa using hanswers⟩

/-- R.PEEK leaves its source, the same context or not. -/
theorem ctx_setCtx_source (s : State) (src dst : Ctx) : (s.setCtx dst (s.ctx src)).ctx src = s.ctx src := by
  rw [ctx_setCtx, ite_self]

/-- After R.PEEK the two contexts have the same view. -/
theorem sameView_peek (h : exec (.rPeek c d) s = .next t) : SameView c d t t := by
  cases h
  refine ⟨?_, rfl, rfl⟩
  rw [ctx_respond, ctx_respond, ctx_setCtx_same, ctx_setCtx_source]

/-- R118, non-mutation. -/
theorem execAll_snapshot_ctx_eq {src dst : Ctx} (hne : dst ≠ src) (hl : ∀ i ∈ l, i = .rPeek src dst ∨ On dst i)
    (h : execAll l s = .next t) : t.ctx src = s.ctx src := by
  induction l generalizing s with
  | nil => cases h; rfl
  | cons i l ih =>
    obtain ⟨hhead, htail⟩ := List.forall_mem_cons.1 hl
    obtain ⟨u, hu, h⟩ := execAll_cons_eq_next.1 h
    refine (ih htail h).trans ?_
    obtain rfl | hon := hhead
    · exact (readerEffect rfl hu).ctx_eq_of_peek hne.symm
    · exact (readerEffect (isWriter_of_on hon) hu).ctx_eq_of_on hon hne.symm

/-- Settles O43: (a) and (b) by what a reader command leaves, (c) as the two contexts have the same view, (d) at once. -/
theorem snapshotLaws : Obligations.SnapshotLaws := by
  refine ⟨fun s t src dst l => execAll_snapshot_ctx_eq, fun s t src dst i hne hi h => ?_,
    fun s t a src dst l l' hp hl hon h => ?_, fun s t src dst h => ?_⟩
  · obtain hon | ⟨d, hd, rfl⟩ := hi
    · exact (readerEffect (isWriter_of_on hon) h).ctx_eq_of_on hon hne
    · exact (readerEffect rfl h).ctx_eq_of_peek hd.symm
  · obtain ⟨b, rs, hb, hview, ha, hbr⟩ := execAll_moveTo hon hl (sameView_peek hp) h
    exact ⟨b, rs, hb, hview.ctx, ha, hbr⟩
  · cases h
    exact ctx_setCtx_same ..

/-! ## Measures (R113, R114) -/

/-- R5 and R33: the stream's length in bits is a 64-bit number. -/
theorem Inv.stream_lt (h : Inv s) : 8 * s.rd.len.toNat < 2 ^ 64 :=
  (Nat.mul_le_mul_left 8 h.rlen).trans_lt h.cfg.1

theorem leftBits_le (p len : Nat) : leftBits p len ≤ 8 * len := by
  unfold leftBits
  split <;> omega

/-- The view of the bytes left lies inside the stream. -/
theorem leftBytes_le (p len : Nat) : leftBytes p len ≤ len := by
  have h := leftBits_le p len
  unfold leftBytes
  omega

/-- Position and bits left add up to the stream exactly when the position is inside it. -/
theorem add_leftBits_eq_iff (p len : Nat) : p + leftBits p len = 8 * len ↔ p ≤ 8 * len := by
  unfold leftBits
  split <;> omega

/-- The view of the bytes left starts at the first byte boundary at or after the position. -/
theorem sub_leftBytes_eq {p len : Nat} (h : p ≤ 8 * len) : len - leftBytes p len = (p + 7) / 8 := by
  rw [leftBytes, leftBits, if_pos h]
  omega

/-- R.LEFTBITS returns the measure itself: the stream's length in bits fits a word. -/
theorem exec_rLeftBits_next {x : Response} (hinv : Inv s) (h : exec (.rLeftBits c) s = .next t)
    (hx : t.responses = s.responses ++ [x]) : x.res.toNat = leftBits (s.ctx c).pos.toNat s.rd.len.toNat := by
  cases h
  obtain rfl := List.singleton_inj.1 (List.append_cancel_left hx)
  exact Nat.mod_eq_of_lt ((leftBits_le _ _).trans_lt hinv.stream_lt)

/-- R.LEFTBYTES returns the view's length and offset themselves: both are at most the stream's length. -/
theorem exec_rLeftBytes_next {y : Response} (h : exec (.rLeftBytes c) s = .next t)
    (hy : t.responses = s.responses ++ [y]) :
    y.res.toNat = leftBytes (s.ctx c).pos.toNat s.rd.len.toNat ∧
      y.aux.toNat = s.rd.len.toNat - leftBytes (s.ctx c).pos.toNat s.rd.len.toNat := by
  cases h
  obtain rfl := List.singleton_inj.1 (List.append_cancel_left hy)
  have hlen := s.rd.len.isLt
  exact ⟨Nat.mod_eq_of_lt ((leftBytes_le _ _).trans_lt hlen), Nat.mod_eq_of_lt ((Nat.sub_le _ _).trans_lt hlen)⟩

/-- Settles O20: the numbers returned are the measures themselves. -/
theorem leftMeasuresAreExact : Obligations.LeftMeasuresAreExact := by
  intro s t u c x y hinv ht hx hu hy
  obtain ⟨hlength, hoffset⟩ := exec_rLeftBytes_next hu hy
  rw [exec_rLeftBits_next hinv ht hx, hlength, hoffset]
  exact ⟨add_leftBits_eq_iff _ _, rfl, Nat.sub_add_cancel (leftBytes_le _ _), sub_leftBytes_eq⟩

/-! ## The words -/

/-- R.SKIP, whose operand is OPD. -/
theorem stands_rSkip (c : Ctx) : Stands (0x0400 + 0x100 * c.val) (.rSkip c) := by
  intro opd
  obtain ⟨hop, hc, hz, hw⟩ := fields_of_row_add (i := .rSkip c opd) rfl (by decide) c (w := 0) (by decide)
  exact decode_of_row ((row_iff_FCFF rfl).2 ⟨hop, hz, hw⟩) (Prod.ext hc.symm rfl)

/-- R.PEEK, whose destination is the low end of WIDTH. -/
theorem stands_rPeek (src dst : Ctx) : Stands (0x0800 + 0x100 * src.val + dst.val) (fun _ => .rPeek src dst) := by
  intro opd
  have hlt : dst.val < 4 := dst.isLt
  obtain ⟨hop, hc, hz, hw⟩ := fields_of_row_add (i := .rPeek src dst) rfl (by decide) src (w := dst.val) (by omega)
  have hdst : dst = cwDst (BitVec.ofNat 16 (0x0800 + 0x100 * src.val + dst.val)) := by
    rw [Fin.ext_iff]
    simp only [cwWidth, cwDst] at hw ⊢
    omega
  exact decode_of_row ((row_iff_FCFC rfl).2 ⟨hop, hz, by rw [hw]; omega⟩) (Prod.ext hc.symm hdst)

/-- R.NEW, which has one word. -/
theorem stands_rNew : Stands 0x6000 .rNew := by
  intro opd
  have hrow : BitVec.ofNat 16 0x6000 &&& 0xFFFF = (0x6000 : CmdWord) := by decide
  exact decode_of_row hrow rfl

/-! ## R.SKIP (R110) -/

/-- R.SKIP within the position bound: the cursor advances, and no byte of RBUF has a part in it. -/
theorem exec_rSkip_ok {bits : Word} (hp : (s.ctx c).pos.toNat + bits.toNat < posLimit) :
    exec (.rSkip c bits) s = .next ((s.setCtx c ((s.ctx c).advance s.rd.len.toNat bits.toNat)).respond 0 0) :=
  requirePosition_ok hp _

/-- R29 makes an advance by no bits none at all: a cursor past the end has its flag set already. -/
theorem advance_zero_of_lawful {cur : Cursor} {len : Word} (h : Lawful cur len) :
    cur.advance len.toNat 0 = cur := by
  refine Cursor.ext_fields (by simp) ?_
  rw [Cursor.advance_err]
  split
  · exact (h.2 ‹_›).symm
  · rfl

/-- Settles O17: R.SKIP is an advance of the cursor, and an advance by no bits is none under R29. -/
theorem skipAdvancesWithoutReading : Obligations.SkipAdvancesWithoutReading := by
  refine ⟨stands_rSkip, fun s c bits => ⟨fun hp => ?_, fun hp => requirePosition_bad hp.not_gt _, fun hinv => ?_⟩⟩
  · rw [exec_rSkip_ok hp, afterConsume_eq]
  · have hzero : (0 : Word).toNat = 0 := rfl
    rw [exec_rSkip_ok (bits := 0) (s.ctx c).pos.isLt, hzero, advance_zero_of_lawful (hinv.reader c),
      setCtx_ctx_self]
    rfl

/-! ## R.PEEK, the reports, R.RESET and R.NEW -/

/-- Settles O18: R.PEEK is one write of the destination. -/
theorem peekCopiesTheCursor : Obligations.PeekCopiesTheCursor := by
  refine ⟨stands_rPeek, fun s src dst => ⟨rfl, ctx_setCtx_source s src dst, fun d hd => ctx_setCtx_ne s _ hd, ?_⟩⟩
  rintro rfl
  exact setCtx_ctx_self s src

/-- R161. -/
theorem code_eq_ite (e : ErrState) : e.code = if e = .overflow then 1 else 0 := by
  cases e <;> rfl

/-- Settles O19: a report is a response and nothing else, and `leftBits` is R113's measure. -/
theorem readerReportsStateOnly : Obligations.ReaderReportsStateOnly := by
  refine ⟨fun c => ⟨?_, ?_, ?_, ?_⟩, fun s c => ⟨rfl, rfl, rfl, ?_⟩⟩
  case refine_5 =>
    rw [← code_eq_ite]
    rfl
  all_goals exact stands_of_row_FCFF rfl (by decide) fun _ _ => Iff.rfl

/-- Settles O21: the rewind is one write of the context. -/
theorem readerResetRewindsOneContext : Obligations.ReaderResetRewindsOneContext :=
  fun _ => ⟨stands_of_row_FCFF rfl (by decide) fun _ _ => Iff.rfl, fun _ => rfl⟩

/-- Settles O22: within the capacity R.NEW is `bindReader`. -/
theorem readerNewBindsAndClearsAll : Obligations.ReaderNewBindsAndClearsAll := by
  refine ⟨stands_rNew, fun s n => ⟨fun hn => ?_, fun hn => requireCapacity_bad hn.not_ge _⟩⟩
  exact ⟨s.bindReader n, requireCapacity_ok hn _, rfl, fun c => ctx_bindReader s c n⟩

end Sys2Proof
end

section
/-! PROOFS of the statements about the writer (43_writer.md): the words of its commands, what a put stores, that it
stores nothing outside its field, and what is read back of it. Whatever a producing command leaves in WBUF is one
insertion, of the first `storedBits` bits of its field; the rest follows from that. -/

namespace Sys2Proof

open Sys2Proof.Machine Sys2Proof.Spec Sys2Proof.Laws

variable {s t u : State} {i j : Instr} {c : Ctx} {w f : Nat} {B : Nat → Byte}

/-! ## The words -/

/-- A writer command without a width has one word, the match column of its row. -/
theorem stands_of_row_FFFF {b : Nat} {i : Word → Instr} (hm : ∀ opd, row (i opd) = (BitVec.ofNat 16 b, 0xFFFF))
    (ho : ∀ opd, Operands (BitVec.ofNat 16 b) opd (i opd)) : Stands b i := by
  have hones : (0xFFFF : CmdWord) = BitVec.allOnes 16 := rfl
  exact fun opd => decode_of_row (by rw [hm, hones, BitVec.and_allOnes]) (ho opd)

/-- The word of a writer command with a width, in which CTX is 0. -/
theorem stands_of_row_FF80 {b : Nat} {i : Word → Instr} (hm : ∀ opd, row (i opd) = (BitVec.ofNat 16 b, 0xFF80))
    (hb : b < 2 ^ 16) (ho : ∀ cw opd, Operands cw opd (i opd) ↔ (w, opd) = (cwWidth cw, opd)) (hw : w < 128) :
    Stands (b + w) i := by
  intro opd
  obtain ⟨hop, hc, hz, hwidth⟩ := fields_of_row_add (hm opd) hb 0 hw
  exact decode_of_row ((row_iff_FF80 (hm opd)).2 ⟨hop, congrArg Fin.val hc, hz⟩)
    ((ho _ _).2 (Prod.ext hwidth.symm rfl))

theorem stands_putOf (n : Size) (hw : w < 128) : Stands (0x9000 + 0x400 * n.code + w) (putOf n w) := by
  cases n <;> exact stands_of_row_FF80 (fun _ => rfl) (by decide) (fun _ _ => Iff.rfl) hw

/-! ## What a put stores -/

/-- No more bits are stored than the field has. -/
theorem storedBits_le (s : State) (w : Nat) : storedBits s w ≤ w := by
  unfold storedBits
  split_ifs <;> omega

theorem storedBits_fits (h : s.wr.cur.pos.toNat + w ≤ 8 * s.wr.len.toNat) : storedBits s w = w := if_pos h

/-- R130's three cases are one insertion, of the first `storedBits` bits of the field. -/
theorem produceBuf_eq_insert (s : State) (w f : Nat) :
    produceBuf s w f =
      insert s.epoch s.wr.buf s.wr.cur.pos.toNat (storedBits s w) (f / 2 ^ (w - storedBits s w)) := by
  unfold storedBits
  split
  · rw [produceBuf_fits f ‹_›, Nat.sub_self, pow_zero, Nat.div_one]
  · have hover : 8 * s.wr.len.toNat < s.wr.cur.pos.toNat + w := by omega
    split
    · by_cases hp : s.wr.cur.pos.toNat < 8 * s.wr.len.toNat
      · exact produceBuf_partial f ‹_› hover hp
      · rw [produceBuf_past f hover (by omega), Nat.sub_eq_zero_of_le (by omega)]
        rfl
    · exact produceBuf_overflow f hover (Bool.eq_false_iff.2 ‹_›)

/-- The first `r` bits of a field of `w` bits, the most significant first, are those of the field. -/
theorem high_bit_eq {r k : Nat} (f : Nat) (hr : r ≤ w) (hk : k < r) :
    f / 2 ^ (w - r) / 2 ^ (r - 1 - k) % 2 = f / 2 ^ (w - 1 - k) % 2 := by
  rw [Nat.div_div_eq_div_mul, ← pow_add, show w - r + (r - 1 - k) = w - 1 - k by omega]

/-- The host sees of WBUF, after a production, the memory it left. -/
theorem hostBit_afterProduce (s : State) (w : Nat) (m : Memory) (k : Nat) :
    hostBit (afterProduce s w m) k = wbit s.epoch m k := rfl

/-- A command that is a production stores its field (R130). -/
theorem puts_of_produce (h : ∀ s, exec i s = produce w f s) : Puts i w f := by
  refine ⟨fun s hp => ⟨produceBuf s w f, ?_, fun k hk => ?_, fun k hk => ?_, fun a ha => ?_⟩, fun s hp => ?_⟩
  · rw [h, produce_ok hp, afterProduce_eq]
  · rw [hostBit_afterProduce, produceBuf_eq_insert, wbit_insert, if_pos (by omega), Nat.add_sub_cancel_left,
      high_bit_eq f (storedBits_le s w) hk]
  · rw [hostBit_afterProduce, produceBuf_eq_insert, wbit_insert, if_neg (by omega), hostBit_eq_wbit]
  · rw [produceBuf_eq_insert]
    refine read_insert_outside _ _ _ _ _ _ fun k hk hlt => ?_
    have hne := ha (k - s.wr.cur.pos.toNat) (by omega)
    rwa [Nat.add_sub_cancel' hk] at hne
  · rw [h, produce_refused hp.not_gt]

/-- R131 to R134 for every size. -/
theorem exec_putOf (n : Size) (w : Nat) (value : Word) (s : State) :
    exec (putOf n w value) s = requireWidth w n.bits (produce w (lowBits w value) s) := by
  cases n <;> rfl

/-- The same within the width constraint. -/
theorem exec_putOf_ok {n : Size} (hw : 1 ≤ w ∧ w ≤ n.bits) (value : Word) (s : State) :
    exec (putOf n w value) s = produce w (lowBits w value) s :=
  (exec_putOf n w value s).trans (requireWidth_ok hw _)

/-- Settles O23: a legal width produces the low bits of the operand, any other is refused. -/
theorem putuWritesLowBits : Obligations.PutuWritesLowBits := by
  refine fun n w => ⟨stands_putOf n, fun value => ⟨fun h1 hn => ?_, fun hw s => ?_⟩⟩
  · exact puts_of_produce (exec_putOf_ok ⟨h1, hn⟩ value)
  · rw [exec_putOf, requireWidth_bad (width_illegal hw)]

/-- The low 64 bits of an operand are all of it. -/
theorem lowBits_64 (value : Word) : lowBits 64 value = value.toNat := Nat.mod_eq_of_lt value.isLt

/-- Settles O24: each command produces the low bits of the operand as they stand. -/
theorem byteAndBigEndianPuts : Obligations.ByteAndBigEndianPuts := by
  refine ⟨⟨?_, ?_, ?_, ?_⟩, fun value => ⟨puts_of_produce fun _ => rfl, puts_of_produce fun _ => rfl,
    puts_of_produce fun _ => rfl, ?_⟩⟩
  case refine_5 =>
    rw [← lowBits_64]
    exact puts_of_produce fun _ => rfl
  all_goals exact stands_of_row_FFFF (fun _ => rfl) fun _ => rfl

/-- Reversing `k` bytes of a value looks at its low `k` bytes alone. -/
theorem bswap_mod (k v : Nat) : bswap k (v % 256 ^ k) = bswap k v := by
  induction k generalizing v with
  | zero => rfl
  | succ k ih =>
    rw [bswap, bswap, pow_succ', Nat.mod_mul_right_mod, Nat.mod_mul_right_div_self, ih]

/-- R135: the field of a little-endian put is the operand's bytes, the least significant first. -/
theorem littleEndianField_eq (k : Nat) (value : Word) : littleEndianField k value = beOf k (byteOf value.toNat) := by
  rw [littleEndianField, lowBits, ← pow_256, bswap_mod, bswap_be]

/-- Settles O25: each command produces the low bytes of the operand reversed. -/
theorem littleEndianPuts : Obligations.LittleEndianPuts := by
  refine ⟨⟨?_, ?_, ?_⟩, fun value => ?_⟩
  case refine_4 =>
    simp only [← littleEndianField_eq]
    exact ⟨puts_of_produce fun _ => rfl, puts_of_produce fun _ => rfl, puts_of_produce fun _ => rfl⟩
  all_goals exact stands_of_row_FFFF (fun _ => rfl) fun _ => rfl

/-! ## What a put leaves alone -/

/-- Settles O38: whatever a producing command stores lies inside its field and inside the stream, and is nothing where
the field does not fit and `WR_PARTIAL` is false. -/
theorem putStoresOnlyInItsField : Obligations.PutStoresOnlyInItsField := by
  intro s t i w hi h
  cases writerEffect (isWriter_of_produces hi) h with
  | produce f hw hp =>
    obtain rfl := Option.some.inj (hi.symm.trans hw)
    refine ⟨fun a ha => read_produceBuf_beyond s w f ha, fun a ha => ?_, fun k hk => ?_, fun hover hk a => ?_⟩
    · exact read_produceBuf_outside s w f fun k h1 h2 => by omega
    · exact wbit_produceBuf_outside s w f hk
    · exact congrArg (Memory.read · a) (produceBuf_overflow f hover hk)
  | report res hr => rcases hr with rfl | rfl | rfl <;> cases hi
  | reset => cases hi
  | new n hn => cases hi

/-! ## The reports, W.RESET and W.NEW -/

/-- Settles O26: a report is a response and nothing else. -/
theorem writerReportsStateOnly : Obligations.WriterReportsStateOnly := by
  refine ⟨⟨?_, ?_, ?_⟩, fun s => ?_⟩
  case refine_4 =>
    rw [← code_eq_ite]
    exact ⟨rfl, rfl, rfl⟩
  all_goals exact stands_of_row_FFFF (fun _ => rfl) fun _ => trivial

/-- Settles O27: the rewind is one write of the cursor, and within the capacity W.NEW is `bindWriter`. -/
theorem writerResetAndNewKeepTheBuffer : Obligations.WriterResetAndNewKeepTheBuffer := by
  refine ⟨⟨stands_of_row_FFFF (fun _ => rfl) fun _ => trivial, stands_of_row_FFFF (fun _ => rfl) fun _ => rfl⟩,
    fun s => ⟨rfl, fun n => ⟨fun hn => ?_, fun hn => requireCapacity_bad hn.not_ge _⟩⟩⟩
  exact requireCapacity_ok hn _

/-! ## Reading a field back -/

/-- R82 to R85 within the width constraint. -/
theorem exec_uintOf_ok {n : Size} (hw : 1 ≤ w ∧ w ≤ n.bits) (c : Ctx) (s : State) :
    exec (uintOf n c w) s = consume c w unsignedRes s :=
  (exec_uintOf n c w s).trans (requireWidth_ok hw _)

/-- R86 to R89 within the width constraint. -/
theorem exec_intOf_ok {n : Size} (hw : 1 ≤ w ∧ w ≤ n.bits) (c : Ctx) (s : State) :
    exec (intOf n c w) s = consume c w (signedRes w) s :=
  (exec_intOf n c w s).trans (requireWidth_ok hw _)

/-- A field that was stored whole is what a stream of WBUF's bytes holds there. -/
theorem fieldOf_of_puts {L : Nat} (hi : Puts i w f) (hf : f < 2 ^ w)
    (hfits : s.wr.cur.pos.toNat + w ≤ 8 * s.wr.len.toNat) (h : exec i s = .next t)
    (hL : s.wr.cur.pos.toNat + w ≤ 8 * L) : fieldOf t.hostReadWbuf L s.wr.cur.pos.toNat w = f := by
  obtain ⟨hstore, hrefuse⟩ := hi
  have hp : s.wr.cur.pos.toNat + w < 2 ^ 64 := by
    by_contra hge
    rw [hrefuse s (Nat.not_lt.1 hge)] at h
    cases h
  obtain ⟨m, hm, hbits, -, -⟩ := hstore s hp
  rw [storedBits_fits hfits] at hbits
  cases hm.symm.trans h
  exact fieldOf_hostBits hL hf hbits

/-- R135: a put that fits and completes is read back, at the same position of a stream of WBUF's bytes, by a command
that reads a field of the same width. -/
theorem exec_get_of_put {form : Nat → Word} (hput : ∀ s, exec i s = produce w f s) (hf : f < 2 ^ w)
    (hget : ∀ s, exec j s = consume c w form s) (hfits : s.wr.cur.pos.toNat + w ≤ 8 * s.wr.len.toNat)
    (h : exec i s = .next t) (hpos : (u.ctx c).pos = s.wr.cur.pos)
    (hL : s.wr.cur.pos.toNat + w ≤ 8 * u.rd.len.toNat)
    (hB : Holds u.rd.buf t.hostReadWbuf u.rd.len.toNat s.wr.cur.pos.toNat w) :
    exec j u = .next (afterConsume u c w (form f)) := by
  have hfield := fieldOf_of_puts (puts_of_produce hput) hf hfits h hL
  obtain ⟨hp, -⟩ := produce_next ((hput s).symm.trans h)
  rw [← hpos] at hp hB hfield
  rw [← hfield]
  exact (reads_of_consume hget).1 u _ hp hB

/-- Reversing the bytes on the way in and on the way out gives the low `k` bytes back. -/
theorem littleEndianRes_field (k : Nat) (v : Word) :
    littleEndianRes k (littleEndianField k v) = BitVec.ofNat 64 (v.toNat % 2 ^ (8 * k)) := by
  have hv : lowBits (8 * k) v < 256 ^ k := pow_256 k ▸ lowBits_lt _ _
  rw [littleEndianRes, littleEndianField, bswap_bswap hv, lowBits]

theorem littleEndianField_lt (k : Nat) (v : Word) : littleEndianField k v < 2 ^ (8 * k) :=
  pow_256 k ▸ bswap_lt k _

/-- Settles O48: each put is a production of its field, and its helper a consumption whose form takes the field back to
the low bits of the operand. -/
theorem helperPutThenReadReturnsValue : Obligations.HelperPutThenReadReturnsValue := by
  intro s t u c v w put get hmem hfits h hpos hL hB
  obtain ⟨f, form, hf, hform, hput, hget⟩ : ∃ (f : Nat) (form : Nat → Word), f < 2 ^ w ∧
      form f = BitVec.ofNat 64 (v.toNat % 2 ^ w) ∧ (∀ s, exec put s = produce w f s) ∧
      ∀ s, exec get s = consume c w form s := by
    simp only [List.mem_cons, Prod.mk.injEq, List.not_mem_nil, or_false] at hmem
    obtain ⟨rfl, rfl, rfl⟩ | ⟨rfl, rfl, rfl⟩ | ⟨rfl, rfl, rfl⟩ | ⟨rfl, rfl, rfl⟩ | ⟨rfl, rfl, rfl⟩ | ⟨rfl, rfl, rfl⟩ |
      ⟨rfl, rfl, rfl⟩ := hmem
    · exact ⟨_, unsignedRes, lowBits_lt 8 v, rfl, fun _ => rfl, fun _ => rfl⟩
    · exact ⟨_, _, littleEndianField_lt 2 v, littleEndianRes_field 2 v, fun _ => rfl, fun _ => rfl⟩
    · exact ⟨_, unsignedRes, lowBits_lt 16 v, rfl, fun _ => rfl, fun _ => rfl⟩
    · exact ⟨_, _, littleEndianField_lt 4 v, littleEndianRes_field 4 v, fun _ => rfl, fun _ => rfl⟩
    · exact ⟨_, unsignedRes, lowBits_lt 32 v, rfl, fun _ => rfl, fun _ => rfl⟩
    · exact ⟨_, _, littleEndianField_lt 8 v, littleEndianRes_field 8 v, fun _ => rfl, fun _ => rfl⟩
    · exact ⟨_, unsignedRes, lowBits_lt 64 v, rfl, fun _ => rfl, fun _ => rfl⟩
  rw [← hform]
  exact exec_get_of_put hput hf hget hfits h hpos hL hB

/-! ## Signed values (R149) -/

/-- The low bits of a value's 64-bit pattern are the value modulo `2^w`. -/
theorem lowBits_ofInt (hw : w ≤ 64) (z : Int) : (lowBits w (BitVec.ofInt 64 z) : Int) = z % 2 ^ w := by
  have hd : (2 : Int) ^ w ∣ 2 ^ 64 := pow_dvd_pow 2 hw
  rw [lowBits, BitVec.toNat_ofInt]
  push_cast
  rw [Int.toNat_of_nonneg (Int.emod_nonneg _ (by decide))]
  exact Int.emod_emod_of_dvd _ hd

/-- A value in the range of `w` bits is the signed reading of its residue. -/
theorem signedOf_of_emod {r : Nat} {z : Int} (hw : 1 ≤ w) (hlo : -(2 ^ (w - 1)) ≤ z) (hhi : z < 2 ^ (w - 1))
    (hr : (r : Int) = z % 2 ^ w) : signedOf r w = z := by
  obtain ⟨k, rfl⟩ := Nat.exists_eq_add_of_le' hw
  rw [Nat.add_sub_cancel] at hlo hhi
  -- omega takes the cast of a power and the power of a cast for two numbers
  have hcast : ((2 ^ k : Nat) : Int) = 2 ^ k := by push_cast; rfl
  rw [signedOf, Nat.add_sub_cancel, pow_succ]
  rw [pow_succ] at hr
  by_cases hz : 0 ≤ z
  · rw [Int.emod_eq_of_lt hz (by omega)] at hr
    rw [if_neg (by omega), hr]
  · rw [← Int.add_emod_right, Int.emod_eq_of_lt (by omega) (by omega)] at hr
    rw [if_pos (by omega), hr]
    omega

/-- Settles O47: the field stored is the value modulo `2^w`, of which the value is the signed reading where it is in
range. -/
theorem signedValuesRoundTrip : Obligations.SignedValuesRoundTrip := by
  refine ⟨fun s t u c w z n m h1 hn hm hlo hhi hfits _ h hpos hL hB => ?_, fun w z n h1 hn => ?_, fun w r _ hw hr => ?_⟩
  · have hz : tosigned (lowBits w (BitVec.ofInt 64 z)) w = z := by
      rw [← signedOf_eq]
      exact signedOf_of_emod h1 hlo hhi (lowBits_ofInt (hn.trans (size_bits_le n)) z)
    have hget := exec_get_of_put (exec_putOf_ok ⟨h1, hn⟩ _) (lowBits_lt _ _)
      (exec_intOf_ok ⟨h1, hm⟩ c) hfits h hpos hL hB
    rwa [signedRes, hz] at hget
  · exact ⟨_, lowBits_ofInt (hn.trans (size_bits_le n)) z, puts_of_produce (exec_putOf_ok ⟨h1, hn⟩ _)⟩
  · rw [signedOf_eq]
    exact lowBits_signedRes hw hr

/-! ## Transfers (R148) -/

/-- R5 and R33: the destination's length in bits is a 64-bit number. -/
theorem Inv.destination_lt (h : Inv s) : 8 * s.wr.len.toNat < 2 ^ 64 :=
  (Nat.mul_le_mul_left 8 h.wlen).trans_lt h.cfg.2

/-- A part of a field that holds values holds values. -/
theorem holds_part {m : Memory} {L p q v : Nat} (h : Holds m B L p w) (hq : p ≤ q) (hv : q + v ≤ p + w) :
    Holds m B L q v :=
  fun k hk hlt hL => h k (hq.trans hk) (hlt.trans_le hv) hL

/-- A bit of a field is a bit of the stream. -/
theorem fieldOf_bit {m : Memory} {L p k : Nat} (h : Holds m B L p w) (hk : k < w) :
    fieldOf B L p w / 2 ^ (w - 1 - k) % 2 = sbitOf B L (p + k) :=
  Option.some.inj ((extract_bit (extract_holds h) hk).symm.trans
    (sbit_holds h (Nat.le_add_right p k) (Nat.add_lt_add_left hk p)))

/-- A cursor whose field fits keeps its flag. -/
theorem advance_err_fits {cur : Cursor} {len : Nat} (h : cur.pos.toNat + w ≤ 8 * len) :
    (cur.advance len w).err = cur.err := by
  rw [Cursor.advance_err, if_neg h.not_gt]

/-- `n` bits of the stream `B` carried from context `c` of `s` to its WBUF leave `u`, whatever else they leave. -/
structure Carried (c : Ctx) (B : Nat → Byte) (n : Nat) (s u : State) : Prop where
  rlen : u.rd.len = s.rd.len
  rbuf : u.rd.buf = s.rd.buf
  wlen : u.wr.len = s.wr.len
  rpos : (u.ctx c).pos.toNat = (s.ctx c).pos.toNat + n
  wpos : u.wr.cur.pos.toNat = s.wr.cur.pos.toNat + n
  rerr : (u.ctx c).err = (s.ctx c).err
  werr : u.wr.cur.err = s.wr.cur.err
  bits : ∀ k < n, hostBit u (s.wr.cur.pos.toNat + k) = sbitOf B s.rd.len.toNat ((s.ctx c).pos.toNat + k)
  kept : ∀ k, k < s.wr.cur.pos.toNat ∨ s.wr.cur.pos.toNat + n ≤ k → hostBit u k = hostBit s k

theorem Carried.refl (c : Ctx) (B : Nat → Byte) (s : State) : Carried c B 0 s s :=
  ⟨rfl, rfl, rfl, rfl, rfl, rfl, rfl, nofun, fun _ _ => rfl⟩

/-- Bits carried after bits carried: the second part leaves the first alone, and carries on where it ended. -/
theorem Carried.trans {m n : Nat} (h : Carried c B m s t) (h' : Carried c B n t u) : Carried c B (m + n) s u where
  rlen := h'.rlen.trans h.rlen
  rbuf := h'.rbuf.trans h.rbuf
  wlen := h'.wlen.trans h.wlen
  rpos := by rw [h'.rpos, h.rpos, Nat.add_assoc]
  wpos := by rw [h'.wpos, h.wpos, Nat.add_assoc]
  rerr := h'.rerr.trans h.rerr
  werr := h'.werr.trans h.werr
  bits := fun k hk => by
    by_cases hkm : k < m
    · rw [h'.kept _ (.inl (by rw [h.wpos]; omega)), h.bits k hkm]
    · have hbit := h'.bits (k - m) (by omega)
      rwa [h.wpos, h.rpos, h.rlen, Nat.add_assoc, Nat.add_assoc, Nat.add_sub_cancel' (Nat.not_lt.1 hkm)] at hbit
  kept := fun k hk => by
    rw [h'.kept k (by rw [h.wpos]; omega), h.kept k (by omega)]

/-- The cursor after a consumption. -/
theorem ctx_afterConsume (s : State) (c : Ctx) (w : Nat) (res : Word) :
    (afterConsume s c w res).ctx c = (s.ctx c).advance s.rd.len.toNat w := by
  rw [afterConsume_eq, ctx_respond, ctx_setCtx_same]

/-- The cursor after a production. -/
theorem cur_afterProduce (s : State) (w : Nat) (m : Memory) :
    (afterProduce s w m).wr.cur = s.wr.cur.advance s.wr.len.toNat w := by
  rw [afterProduce_eq, respond_wr, setWriterCursor_cur]

theorem ctx_afterProduce (s : State) (w : Nat) (m : Memory) (c : Ctx) : (afterProduce s w m).ctx c = s.ctx c := rfl

theorem lastRes_afterConsume (s : State) (c : Ctx) (w : Nat) (res : Word) :
    lastRes (afterConsume s c w res) = res := by
  simp [lastRes, afterConsume, answer]

/-- The reading command of a transfer completes with a RES whose low bits are the field, read signed or not. -/
theorem exec_transfer_read {x : Transfer} (hx : x.ok) (hp : (s.ctx c).pos.toNat + x.w < 2 ^ 64)
    (hB : Holds s.rd.buf B s.rd.len.toNat (s.ctx c).pos.toNat x.w) :
    ∃ res, lowBits x.w res = fieldOf B s.rd.len.toNat (s.ctx c).pos.toNat x.w ∧
      exec (x.read c) s = .next (afterConsume s c x.w res) := by
  obtain ⟨h1, hread, -⟩ := hx
  have h64 : x.w ≤ 64 := hread.trans (size_bits_le _)
  unfold Transfer.read
  split
  · exact ⟨_, lowBits_signedRes h64 (fieldOf_lt _ _ _ _),
      (reads_of_consume (exec_intOf_ok ⟨h1, hread⟩ c)).1 s B hp hB⟩
  · exact ⟨_, lowBits_unsignedRes h64 (fieldOf_lt _ _ _ _),
      (reads_of_consume (exec_uintOf_ok ⟨h1, hread⟩ c)).1 s B hp hB⟩

/-- One transfer that fits both streams completes and carries its bits. -/
theorem transfer_carries {x : Transfer} (hinv : Inv s) (hx : x.ok)
    (hr : (s.ctx c).pos.toNat + x.w ≤ 8 * s.rd.len.toNat) (hw : s.wr.cur.pos.toNat + x.w ≤ 8 * s.wr.len.toNat)
    (hB : Holds s.rd.buf B s.rd.len.toNat (s.ctx c).pos.toNat x.w) :
    ∃ t u, exec (x.read c) s = .next t ∧ exec (putOf x.putSize x.w (lastRes t)) t = .next u ∧
      Carried c B x.w s u := by
  have hrpos := hr.trans_lt hinv.stream_lt
  have hwpos := hw.trans_lt hinv.destination_lt
  obtain ⟨res, hres, ht⟩ := exec_transfer_read hx hrpos hB
  obtain ⟨h1, -, hput⟩ := hx
  obtain ⟨m, hu, hbits, hkept, -⟩ :=
    (puts_of_produce (exec_putOf_ok ⟨h1, hput⟩ res)).1 (afterConsume s c x.w res) hwpos
  have hstored := storedBits_fits (s := afterConsume s c x.w res) hw
  rw [hstored, hres] at hbits
  rw [hstored] at hkept
  refine ⟨_, afterProduce (afterConsume s c x.w res) x.w m, ht, by rwa [lastRes_afterConsume], ?_⟩
  exact
    { rlen := rfl
      rbuf := rfl
      wlen := rfl
      rpos := by rw [ctx_afterProduce, ctx_afterConsume, Cursor.advance_pos_toNat _ hrpos]
      wpos := by rw [cur_afterProduce]; exact Cursor.advance_pos_toNat _ hwpos
      rerr := by rw [ctx_afterProduce, ctx_afterConsume, advance_err_fits hr]
      werr := by rw [cur_afterProduce]; exact advance_err_fits hw
      bits := fun k hk => (hbits k hk).trans (fieldOf_bit hB hk)
      kept := hkept }

/-- A sequence of transfers whose first completes goes on with the rest. -/
theorem transferAll_cons {x : Transfer} {l : List Transfer} (hread : exec (x.read c) s = .next t)
    (hput : exec (putOf x.putSize x.w (lastRes t)) t = .next u) : transferAll c (x :: l) s = transferAll c l u := by
  rw [transferAll, hread]
  simp only [hput]

theorem totalBits_cons (x : Transfer) (l : List Transfer) : totalBits (x :: l) = x.w + totalBits l := by
  simp [totalBits]

/-- Transfers that fit both streams together complete and carry their bits: the first leaves a state from which the rest
fit. -/
theorem transferAll_carries {l : List Transfer} (hinv : Inv s) (hl : ∀ x ∈ l, x.ok)
    (hr : (s.ctx c).pos.toNat + totalBits l ≤ 8 * s.rd.len.toNat)
    (hw : s.wr.cur.pos.toNat + totalBits l ≤ 8 * s.wr.len.toNat)
    (hB : Holds s.rd.buf B s.rd.len.toNat (s.ctx c).pos.toNat (totalBits l)) :
    ∃ t, transferAll c l s = .next t ∧ Carried c B (totalBits l) s t := by
  induction l generalizing s with
  | nil => exact ⟨s, rfl, .refl c B s⟩
  | cons x l ih =>
    obtain ⟨hhead, htail⟩ := List.forall_mem_cons.1 hl
    rw [totalBits_cons] at hr hw hB ⊢
    have hfirst := holds_part hB (v := x.w) le_rfl (by omega)
    have hrest := holds_part hB (v := totalBits l) (Nat.le_add_right _ x.w) (by omega)
    obtain ⟨t, u, ht, hu, hcarried⟩ := transfer_carries hinv hhead (by omega) (by omega) hfirst
    rw [← Nat.add_assoc, ← hcarried.rpos, ← hcarried.rlen] at hr
    rw [← Nat.add_assoc, ← hcarried.wpos, ← hcarried.wlen] at hw
    rw [← hcarried.rpos, ← hcarried.rlen, ← hcarried.rbuf] at hrest
    have huinv : Inv u := exec_keeps_inv (exec_keeps_inv hinv ht) hu
    obtain ⟨v, hv, hcarriedRest⟩ := ih huinv htail hr hw hrest
    exact ⟨v, (transferAll_cons ht hu).trans hv, hcarried.trans hcarriedRest⟩

/-- A byte of WBUF whose eight bits are those of a byte of the stream is that byte. -/
theorem hostReadWbuf_eq_of_bits {L a : Nat} (ha : a < L)
    (h : ∀ k < 8, hostBit t (8 * a + k) = sbitOf B L (8 * a + k)) : t.hostReadWbuf a = B a := by
  refine byte_ext fun k hk => ?_
  have hbyte : (8 * a + k) / 8 = a := by omega
  have hbit : (8 * a + k) % 8 = k := by omega
  have := h k hk
  rwa [hostBit, sbitOf, if_pos (by omega), hbyte, hbit] at this

/-- Settles O46: the transfers carry their bits, and over whole buffers those are all the bits of every byte. -/
theorem roundTripReproducesTheStream : Obligations.RoundTripReproducesTheStream := by
  intro s c l B hinv hl hr hw hB
  obtain ⟨t, ht, hc⟩ := transferAll_carries hinv hl hr hw hB
  refine ⟨t, ht, hc.bits, hc.kept, hc.rerr, hc.werr, hc.rpos, hc.wpos, fun hrzero hwzero htotal _ a ha => ?_⟩
  refine hostReadWbuf_eq_of_bits ha fun k hk => ?_
  have hzero : (0 : Word).toNat = 0 := rfl
  have hbit := hc.bits (8 * a + k) (by omega)
  rwa [hrzero, hwzero, hzero, Nat.zero_add] at hbit

end Sys2Proof
end

section
/-! PROOFS of the statements about the one condition (60_exceptions.md): when Overflow is set, what later commands return
and store, and what clears it. First what a consuming and a producing command that completes must have done; then each
statement is a case split over what a command of each unit can do. -/

namespace Sys2Proof

open Sys2Proof.Machine Sys2Proof.Spec

variable {s t : State} {i : Instr} {c d : Ctx} {w : Nat}

/-! ## Consuming and producing commands -/

/-- A consuming command returns stream data or is R.SKIP. -/
theorem readShape_or_rSkip_of_consumes (h : consumes i = some (c, w)) :
    (∃ form, readShape i = some (c, w, form)) ∨ ∃ bits, i = .rSkip c bits ∧ bits.toNat = w := by
  cases i <;> cases h
  case rSkip.refl bits => exact .inr ⟨bits, rfl, rfl⟩
  all_goals exact .inl ⟨_, rfl⟩

theorem putShape_of_produces (h : produces i = some w) : ∃ f, putShape i = some (w, f) := by
  cases i <;> cases h <;> exact ⟨_, rfl⟩

/-- R9: the signed reading of 0 is 0, whatever the width. -/
theorem signedRes_zero (w : Nat) : signedRes w 0 = 0 := by
  rw [signedRes, tosigned_of_lt (by positivity)]
  rfl

/-- A field of zeros is returned as 0 by every command that returns stream data. -/
theorem form_zero_of_readShape {form : Nat → Word} (h : readShape i = some (c, w, form)) : form 0 = 0 := by
  cases i <;> cases h
  case rInt8.refl | rInt16.refl | rInt32.refl | rInt64.refl => exact signedRes_zero w
  all_goals rfl

/-- The one way a consuming command completes: its cursor advances, and RES is 0 where the position was at or past the
end. -/
theorem exec_next_of_consumes (hc : consumes i = some (c, w)) (h : exec i s = .next t) :
    ∃ res, t = (s.setCtx c ((s.ctx c).advance s.rd.len.toNat w)).respond res 0 ∧
      (8 * s.rd.len.toNat ≤ (s.ctx c).pos.toNat → res = 0) := by
  rcases readShape_or_rSkip_of_consumes hc with ⟨form, hr⟩ | ⟨bits, rfl, rfl⟩
  · rw [exec_read hr (wf_of_exec_next h)] at h
    obtain ⟨raw, -, hraw, rfl⟩ := consume_next h
    refine ⟨_, rfl, fun hp => ?_⟩
    obtain rfl : 0 = raw := Option.some.inj ((extract_past _ w hp).symm.trans hraw)
    exact form_zero_of_readShape hr
  · obtain ⟨-, h⟩ := requirePosition_next h
    cases h
    exact ⟨0, rfl, fun _ => rfl⟩

/-- The one way a producing command completes. -/
theorem exec_next_of_produces (hp : produces i = some w) (h : exec i s = .next t) :
    ∃ f, t = ((s.setWbuf (produceBuf s w f)).setWriterCursor (s.wr.cur.advance s.wr.len.toNat w)).respond 0 0 := by
  obtain ⟨f, hs⟩ := putShape_of_produces hp
  rw [exec_put hs (wf_of_exec_next h)] at h
  exact ⟨f, (produce_next h).2⟩

/-! ## When the flag is set (R160) -/

/-- A reader command that consumes nothing sets no flag, though R.PEEK copies one. -/
theorem ReaderEffect.overflow_of_not_consumes (he : ReaderEffect s i t) (hc : consumes i = none)
    (ht : (t.ctx d).err = .overflow) :
    (s.ctx d).err = .overflow ∨ ∃ src, i = .rPeek src d ∧ (s.ctx src).err = .overflow := by
  cases he with
  | consume res hc' => rw [hc] at hc'; cases hc'
  | peek src dst =>
    rw [ctx_respond, ctx_setCtx] at ht
    split at ht
    · subst d; exact .inr ⟨src, rfl, ht⟩
    · exact .inl ht
  | report => exact .inl ht
  | reset c =>
    rw [ctx_respond, ctx_setCtx] at ht
    split at ht
    · cases ht
    · exact .inl ht
  | new n => rw [ctx_respond, ctx_bindReader] at ht; cases ht

/-- A writer command that produces nothing does not set the writer's flag. -/
theorem WriterEffect.overflow_of_not_produces (he : WriterEffect s i t) (hp : produces i = none)
    (ht : t.wr.cur.err = .overflow) : s.wr.cur.err = .overflow := by
  cases he with
  | produce f hw => rw [hp] at hw; cases hw
  | report => exact ht
  | reset => cases ht
  | new n => cases ht

/-- Of the commands that complete, R.SKIP alone can consume no bits. -/
theorem eq_rSkip_of_consumes_zero (h : exec i s = .next t) (hc : consumes i = some (c, 0)) : i = .rSkip c 0 := by
  rcases readShape_or_rSkip_of_consumes hc with ⟨form, hr⟩ | ⟨bits, rfl, hbits⟩
  · have hpos := ((width_pos (wf_of_exec_next h)).1 _ _ _ hr).1
    omega
  · obtain rfl : bits = 0 := BitVec.eq_of_toNat_eq hbits
    rfl

/-- No command that completes produces no bits. -/
theorem produces_ne_zero (h : exec i s = .next t) : produces i ≠ some 0 := fun hp => by
  obtain ⟨f, hs⟩ := putShape_of_produces hp
  have hpos := ((width_pos (wf_of_exec_next h)).2 _ _ hs).1
  omega

/-- Settles O29: an advance sets the flag exactly under R160's condition, and every other effect copies or clears. -/
theorem overflowExactlyWhenPastTheEnd : Obligations.OverflowExactlyWhenPastTheEnd := by
  intro s t i h
  refine ⟨fun c w hc => ?_, fun w hp => ?_, fun hc hp => ?_, fun c hc => ?_, produces_ne_zero h⟩
  · obtain ⟨res, rfl, -⟩ := exec_next_of_consumes hc h
    refine ⟨?_, fun d hd => congrArg Cursor.err (ctx_setCtx_ne s _ hd), rfl⟩
    rw [ctx_respond, ctx_setCtx_same]
    exact Cursor.advance_err_iff ..
  · obtain ⟨f, rfl⟩ := exec_next_of_produces hp h
    exact ⟨Cursor.advance_err_iff .., fun d => rfl⟩
  · rcases exec_effect h with ⟨-, he⟩ | ⟨-, he⟩
    · exact ⟨fun ht => he.wr_eq ▸ ht, fun d => he.overflow_of_not_consumes hc⟩
    · refine ⟨he.overflow_of_not_produces hp, fun d ht => .inl ?_⟩
      rwa [State.ctx, he.rd_eq] at ht
  · refine ⟨eq_rSkip_of_consumes_zero h hc, fun hinv => ?_⟩
    obtain ⟨res, rfl, -⟩ := exec_next_of_consumes hc h
    rw [ctx_respond, ctx_setCtx_same, advance_zero_of_lawful (hinv.reader c)]

/-! ## While the flag is set (R165) -/

/-- Settles O30: under R29 a flagged cursor is past the end, where a field reads as zeros and nothing is stored. -/
theorem afterOverflowZerosAndNoStores : Obligations.AfterOverflowZerosAndNoStores := by
  intro s t i hinv h
  refine ⟨fun c w hc herr => ?_, fun w hp herr => ?_⟩
  · have hpast := (hinv.reader c).1 herr
    obtain ⟨res, rfl, hres⟩ := exec_next_of_consumes hc h
    obtain rfl := hres hpast.le
    refine ⟨rfl, ?_⟩
    rw [ctx_respond, ctx_setCtx_same]
    exact (Cursor.advance_err_iff ..).2 (.inl herr)
  · have hpast := hinv.writer.1 herr
    obtain ⟨f, rfl⟩ := exec_next_of_produces hp h
    refine ⟨fun a => ?_, (Cursor.advance_err_iff ..).2 (.inl herr)⟩
    exact congrArg (Memory.read · a) (produceBuf_past f (hpast.trans_le (Nat.le_add_right _ _)) hpast.le)

/-! ## What clears the flag (R166) -/

/-- An advance clears no flag. -/
theorem advance_err_ne_none {cur : Cursor} (len w : Nat) (h : cur.err = .overflow) :
    (cur.advance len w).err ≠ .none := by
  rw [(Cursor.advance_err_iff cur len w).2 (.inl h)]
  nofun

/-- A command that clears a context's flag rewinds the context, or is an R.PEEK into it from a clear one. -/
theorem exec_clears_ctx (h : exec i s = .next t) (hs : (s.ctx c).err = .overflow) (ht : (t.ctx c).err = .none) :
    ((t.ctx c).pos = 0 ∧ i = .rReset c) ∨ ((t.ctx c).pos = 0 ∧ ∃ n, i = .rNew n) ∨
      ∃ src, i = .rPeek src c ∧ (s.ctx src).err = .none := by
  have hset : (s.ctx c).err ≠ .none := by rw [hs]; nofun
  rcases exec_effect h with ⟨-, he⟩ | ⟨-, he⟩
  · cases he with
    | @consume _ d w res =>
      rw [ctx_respond, ctx_setCtx] at ht
      split at ht
      · subst d; exact absurd ht (advance_err_ne_none _ _ hs)
      · exact absurd ht hset
    | peek src dst =>
      rw [ctx_respond, ctx_setCtx] at ht
      split at ht
      · subst c; exact .inr (.inr ⟨src, rfl, ht⟩)
      · exact absurd ht hset
    | report => exact absurd ht hset
    | reset d =>
      rw [ctx_respond, ctx_setCtx] at ht ⊢
      split at ht
      · subst d; exact .inl ⟨by rw [if_pos rfl, Cursor.zero_pos], rfl⟩
      · exact absurd ht hset
    | new n => exact .inr (.inl ⟨by rw [ctx_respond, ctx_bindReader, Cursor.zero_pos], n, rfl⟩)
  · rw [State.ctx, he.rd_eq] at ht
    exact absurd ht hset

/-- A command that clears the writer's flag rewinds the writer. -/
theorem exec_clears_writer (h : exec i s = .next t) (hs : s.wr.cur.err = .overflow) (ht : t.wr.cur.err = .none) :
    t.wr.cur.pos = 0 ∧ (i = .wReset ∨ ∃ n, i = .wNew n) := by
  have hset : s.wr.cur.err ≠ .none := by rw [hs]; nofun
  rcases exec_effect h with ⟨-, he⟩ | ⟨-, he⟩
  · exact absurd (he.wr_eq ▸ ht) hset
  · cases he with
    | produce f => exact absurd ht (advance_err_ne_none _ _ hs)
    | report => exact absurd ht hset
    | reset => exact ⟨rfl, .inl rfl⟩
    | new n => exact ⟨rfl, .inr ⟨n, rfl⟩⟩

/-- A clear cursor of a state that meets the invariant is at or below the capacity (R29). -/
theorem Inv.pos_le_of_clear (h : Inv s) (hc : (s.ctx c).err = .none) :
    (s.ctx c).pos.toNat ≤ 8 * s.rd.len.toNat := by
  refine Nat.not_lt.1 fun hlt => ?_
  rw [(h.reader c).2 hlt] at hc
  cases hc

/-- Settles O31: a host write touches no flag, a hardware reset rewinds every cursor, and of the commands only the rewinds
and R.PEEK clear one. -/
theorem flagClearedOnlyByRewinds : Obligations.FlagClearedOnlyByRewinds := by
  intro s t m rest hinv hpend h
  have hinvt := everyStepKeepsTheInvariant s t hinv h
  rw [step_move hpend] at h
  rcases takeMove_next h with ⟨cw, opd, i, rfl, hd, he⟩ | ⟨a, b, -, -, -, rfl⟩ | ⟨a, b, -, -, -, rfl⟩ | ⟨rfl, rfl⟩
  · refine ⟨fun c hs ht => ⟨hinvt.pos_le_of_clear ht, .inr ⟨cw, opd, rfl, ?_⟩⟩, fun hs ht => ?_⟩
    · rw [hd]
      obtain ⟨hp, rfl⟩ | ⟨hp, n, rfl⟩ | ⟨src, rfl, hsrc⟩ := exec_clears_ctx he hs ht
      · exact .inl ⟨hp, rfl⟩
      · exact .inr (.inl ⟨hp, n, rfl⟩)
      · exact .inr (.inr ⟨src, rfl, hsrc⟩)
    · obtain ⟨hp, hi⟩ := exec_clears_writer he hs ht
      refine ⟨hp, .inr ⟨cw, opd, rfl, ?_⟩⟩
      rw [hd]
      exact hi.imp (congrArg _) fun ⟨n, hn⟩ => ⟨n, congrArg _ hn⟩
  · exact ⟨fun c hs ht => absurd (hs.symm.trans ht) nofun, fun hs ht => absurd (hs.symm.trans ht) nofun⟩
  · exact ⟨fun c hs ht => absurd (hs.symm.trans ht) nofun, fun hs ht => absurd (hs.symm.trans ht) nofun⟩
  · exact ⟨fun c _ ht => ⟨hinvt.pos_le_of_clear ht, .inl ⟨by rw [ctx_hardwareReset, Cursor.zero_pos], rfl⟩⟩,
      fun _ _ => ⟨rfl, .inl rfl⟩⟩

end Sys2Proof
end

section
/-! PROOFS of the statements about the step, reset, the host's direct accesses and reads of unwritten bytes
(30_encoding.md, 70_reset_and_hazards.md, 93_implementation_defined.md U9). A step is `takeMove` of the host's next move,
so each proof names the move and cites what that move can do. -/

namespace Sys2Proof

open Sys2Proof.Machine Sys2Proof.Spec

variable {s t : State} {i : Instr} {c : Ctx} {w : Nat}

/-! ## The step (assumption 2) -/

/-- Settles O7: a command leaves the frame of `exec` and answers once; the other moves each write one part of the state,
of which the power-on counter is one for a hardware reset alone. -/
theorem stepTakesOneMoveAndAnswersOnce : Obligations.StepTakesOneMoveAndAnswersOnce := by
  intro s t m rest hpend h
  rw [step_move hpend] at h
  rcases takeMove_next h with ⟨cw, opd, i, rfl, -, he⟩ | ⟨a, b, rfl, -, -, rfl⟩ | ⟨a, b, rfl, -, -, rfl⟩ | ⟨rfl, rfl⟩
  · obtain ⟨hcfg, hepoch, hrest, hresp⟩ := exec_frame he
    exact ⟨hcfg, hrest, hepoch.trans (if_neg nofun).symm, hresp⟩
  · exact ⟨rfl, rfl, (if_neg nofun).symm, rfl⟩
  · exact ⟨rfl, rfl, (if_neg nofun).symm, rfl⟩
  · exact ⟨rfl, rfl, (if_pos rfl).symm, rfl⟩

/-- Settles O5: a step is `takeMove` of the next move, which for a command is `exec` of what its word decodes to. -/
theorem stepRunsTheDecodedCommand : Obligations.StepRunsTheDecodedCommand := by
  intro s cw opd rest hpend
  rw [step_move hpend]
  exact ⟨fun _ => takeMove_command _, fun _ => takeMove_illegal _⟩

/-- Settles O6: the model's choice for an empty list of moves. -/
theorem idleStepHoldsState : Obligations.IdleStepHoldsState := fun _ => step_idle

/-- Settles O1: the decoder runs on each printed word. -/
theorem printedWordsDecodeRight : Obligations.PrintedWordsDecodeRight := by
  unfold Obligations.PrintedWordsDecodeRight
  decide

/-! ## Reset (R33, R180) -/

@[simp] theorem ctx_reset (c : Ctx) : State.reset.ctx c = Cursor.zero := by
  simp [State.ctx, State.reset, Reader.reset]

/-- Settles O8: both units hold their reset values, and the host's side is empty. -/
theorem resetStateValues : Obligations.ResetStateValues :=
  ⟨rfl, ctx_reset, rfl, rfl, Memory.read_nil, Memory.read_nil, rfl, rfl, rfl⟩

/-- Settles O35: nothing is bound, no byte is listed and every cursor is `(0, None)`, so that the bounds on the default
capacities are all that is left. -/
theorem resetMeetsTheInvariant : Obligations.ResetMeetsTheInvariant where
  cfg := by decide
  rlen := Nat.zero_le _
  wlen := Nat.zero_le _
  rbuf := .nil
  wbuf := .nil
  rwithin := List.forall_mem_nil _
  wwithin := List.forall_mem_nil _
  reader := fun c => by rw [ctx_reset]; exact zero_lawful _
  writer := zero_lawful _

/-- Over an empty stream every consumption of at least one bit overflows. -/
theorem overflow_of_consumes_of_len_zero (hlen : s.rd.len = 0) (hc : consumes i = some (c, w)) (hw : 0 < w)
    (h : exec i s = .next t) : (t.ctx c).err = .overflow := by
  obtain ⟨hflag, -⟩ := (overflowExactlyWhenPastTheEnd s t i h).1 c w hc
  refine hflag.2 (.inr ?_)
  rw [hlen]
  exact Nat.add_pos_right _ hw

/-- And into an empty destination every production of at least one bit. -/
theorem overflow_of_produces_of_len_zero (hlen : s.wr.len = 0) (hp : produces i = some w) (hw : 0 < w)
    (h : exec i s = .next t) : t.wr.cur.err = .overflow := by
  obtain ⟨hflag, -⟩ := (overflowExactlyWhenPastTheEnd s t i h).2.1 w hp
  refine hflag.2 (.inr ?_)
  rw [hlen]
  exact Nat.add_pos_right _ hw

/-- R117 within the capacity. -/
theorem exec_rNew_ok {n : Word} (hn : n.toNat ≤ s.cfg.rcap) :
    exec (.rNew n) s = .next ((s.bindReader n).respond 0 0) := requireCapacity_ok hn _

/-- R147 within the capacity. -/
theorem exec_wNew_ok {n : Word} (hn : n.toNat ≤ s.cfg.wcap) :
    exec (.wNew n) s = .next ((s.bindWriter n).respond 0 0) := requireCapacity_ok hn _

/-- Settles O9: the next state is `hardwareReset`, whose units are those R.NEW 0 and W.NEW 0 leave, with empty streams. -/
theorem hardwareResetFromAnyState : Obligations.HardwareResetFromAnyState := by
  intro s rest hpend
  refine ⟨hardwareReset { s with pending := rest }, step_move hpend, rfl, ctx_hardwareReset _, rfl, rfl,
    Memory.read_nil, Memory.read_nil, rfl, rfl, rfl, ?_, ?_, ?_, ?_⟩
  · exact exec_rNew_ok (n := 0) (Nat.zero_le _)
  · exact exec_wNew_ok (n := 0) (Nat.zero_le _)
  · exact fun i c w u => overflow_of_consumes_of_len_zero rfl
  · exact fun i w u => overflow_of_produces_of_len_zero rfl

/-! ## The host's direct accesses (R184, R185) -/

/-- When a host write is refused. -/
theorem hostWrite_refused {cap len a : Nat} (u : State) (hc : a < cap) (hl : a < len) :
    hostWrite cap len a u = .refused .bufferInUse := by
  rw [hostWrite, if_neg hc.not_ge, if_pos hl]

/-- When a host write faults. -/
theorem hostWrite_fault {cap len a : Nat} (u : State) (hc : cap ≤ a) :
    hostWrite cap len a u = .fault .noSuchBufferByte := if_pos hc

/-- Settles O10: a host write of RBUF is `hostWrite` of one `Memory.write`. -/
theorem hostWritesRbufOutsideTheStream : Obligations.HostWritesRbufOutsideTheStream := by
  intro s a b rest hpend
  rw [step_move hpend]
  refine ⟨fun hc hl => ⟨s.rd.buf.write a b, hostWrite_ok _ hc hl, Memory.read_write_same _ a b, ?_⟩,
    hostWrite_refused _, hostWrite_fault _⟩
  exact fun k hk => Memory.read_write_ne b hk

/-- Settles O11: a host write of WBUF is `hostWrite` of one `Memory.write`. -/
theorem hostWritesWbufOutsideTheStream : Obligations.HostWritesWbufOutsideTheStream := by
  intro s a b rest hpend
  rw [step_move hpend]
  refine ⟨fun hc hl => ⟨s.wr.buf.write a b, hostWrite_ok _ hc hl, Memory.read_write_same _ a b, ?_⟩,
    hostWrite_refused _, hostWrite_fault _⟩
  exact fun k hk => Memory.read_write_ne b hk

/-! ## Reads of bytes that hold no value (U9, assumption 4) -/

/-- A field has no value exactly when some byte of the stream that it touches has none. -/
theorem extract_eq_none_iff {m : Memory} {len p : Nat} :
    extract m len p w = none ↔ ∃ k, p ≤ k ∧ k < p + w ∧ k < 8 * len ∧ m.read (k / 8) = none := by
  rw [← Option.not_isSome_iff_eq_none, extract_isSome]
  simp only [sbit_isSome, not_forall, Option.not_isSome_iff_eq_none]
  constructor
  · rintro ⟨j, hj, hlen, hread⟩
    exact ⟨p + j, Nat.le_add_right p j, Nat.add_lt_add_left hj p, hlen, hread⟩
  · rintro ⟨k, hk, hkw, hlen, hread⟩
    obtain ⟨j, rfl⟩ := Nat.exists_eq_add_of_le hk
    exact ⟨j, Nat.lt_of_add_lt_add_left hkw, hlen, hread⟩

/-- Within the position bound a consumption faults exactly when its field has no value. -/
theorem consume_fault_iff {form : Nat → Word} (hp : (s.ctx c).pos.toNat + w < posLimit) :
    consume c w form s = .fault .rbufByteNeverWritten ↔
      extract s.rd.buf s.rd.len.toNat (s.ctx c).pos.toNat w = none := by
  cases hraw : extract s.rd.buf s.rd.len.toNat (s.ctx c).pos.toNat w with
  | none => simp [consume_fault hp hraw]
  | some raw => simp [consume_ok hp hraw]

/-- Settles O28: such a command is a consumption, which faults exactly when its field has no value. -/
theorem unwrittenByteFaults : Obligations.UnwrittenByteFaults := by
  intro s i c w hwf hc hskip hp
  rcases readShape_or_rSkip_of_consumes hc with ⟨form, hr⟩ | ⟨bits, rfl, -⟩
  · rw [exec_read hr hwf, consume_fault_iff hp, extract_eq_none_iff]
  · exact absurd rfl (hskip bits)

end Sys2Proof
end
